-- ==== Sys2Proof/Word.lean ====
section
/-!
DEFINITION. The word types, the eight lane types, the names of the harness registers and the two
cause codes (00_scope.md R9, R11; 10_state.md R21; 60_exceptions.md R141).
-/

namespace Sys2Proof

/-- A command word: 32 bits (30_encoding.md R50). -/
abbrev Command := BitVec 32

/-- The index of a vector register, v0 to v31 (10_state.md R21). -/
abbrev VIndex := BitVec 5

/-- The index of a mask register, m0 to m7 (10_state.md R21). -/
abbrev MIndex := BitVec 3

/-- The index of a scalar register, x0 to x31 (10_state.md R21). -/
abbrev XIndex := BitVec 5

/-- The eight lane types (00_scope.md R9). -/
inductive LaneType where
  | u8 | u16 | u32 | u64 | i8 | i16 | i32 | i64
  deriving DecidableEq, Repr

/-- `w(T)`, the width of a lane of type `T` in bits (00_scope.md R9). -/
def LaneType.width : LaneType → Nat
  | .u8 | .i8 => 8
  | .u16 | .i16 => 16
  | .u32 | .i32 => 32
  | .u64 | .i64 => 64

/-- `log2(w(T))`, how many low bits of a count lane are significant (42_variable_shift.md R95). -/
def LaneType.log2Width : LaneType → Nat
  | .u8 | .i8 => 3
  | .u16 | .i16 => 4
  | .u32 | .i32 => 5
  | .u64 | .i64 => 6

/-- Whether the lanes of type `T` are signed (30_encoding.md R57). -/
def LaneType.signed : LaneType → Bool
  | .u8 | .u16 | .u32 | .u64 => false
  | .i8 | .i16 | .i32 | .i64 => true

/-- A register of the harness, by file and number (10_state.md R21). -/
inductive RegName where
  | v (i : VIndex)
  | m (i : MIndex)
  | x (i : XIndex)
  deriving DecidableEq, Repr

/-- The exceptions the unit reports (60_exceptions.md R141). -/
inductive Cause where
  | illegalCommand
  | immOutOfRange
  deriving DecidableEq, Repr

/-- The cause code of an exception on the interface (60_exceptions.md R141). -/
def Cause.code : Cause → Nat
  | .illegalCommand => 1
  | .immOutOfRange => 2

end Sys2Proof
end

