-- ==== Sys2Proof/Syntax.lean ====
section
/-!
DEFINITION. The commands of the unit, one constructor for each row of the opcode map
(30_encoding.md R59). `T` is the lane type of the command word, `k` the 6-bit immediate.
-/

namespace Sys2Proof

inductive Instr where
  /-- SHLI: constant-amount left shift (40_constant_shift.md R83). -/
  | shli (T : LaneType) (vd vs1 : VIndex) (k : BitVec 6)
  /-- SHLI.Z: the same, inactive lanes zero (44_masked_shift.md R117). -/
  | shliZ (T : LaneType) (vd vs1 : VIndex) (k : BitVec 6) (vm : MIndex)
  /-- SHLI.M: the same, inactive lanes keep the old `vd` (44_masked_shift.md R119). -/
  | shliM (T : LaneType) (vd vs1 : VIndex) (k : BitVec 6) (vm : MIndex)
  /-- SHLU: runtime-uniform left shift (41_uniform_shift.md R92). -/
  | shlu (T : LaneType) (vd vs1 : VIndex) (rs : XIndex)
  /-- SHLV: per-lane variable left shift (42_variable_shift.md R96). -/
  | shlv (T : LaneType) (vd vs1 vs2 : VIndex)
  /-- SHLV.M: the same, inactive lanes keep the old `vd` (44_masked_shift.md R121). -/
  | shlvM (T : LaneType) (vd vs1 vs2 : VIndex) (vm : MIndex)
  /-- SHRI: constant-amount right shift (40_constant_shift.md R84). -/
  | shri (T : LaneType) (vd vs1 : VIndex) (k : BitVec 6)
  /-- SHRI.Z: the same, inactive lanes zero (44_masked_shift.md R118). -/
  | shriZ (T : LaneType) (vd vs1 : VIndex) (k : BitVec 6) (vm : MIndex)
  /-- SHRI.M: the same, inactive lanes keep the old `vd` (44_masked_shift.md R120). -/
  | shriM (T : LaneType) (vd vs1 : VIndex) (k : BitVec 6) (vm : MIndex)
  /-- SHRU: runtime-uniform right shift (41_uniform_shift.md R93). -/
  | shru (T : LaneType) (vd vs1 : VIndex) (rs : XIndex)
  /-- SHRV: per-lane variable right shift (42_variable_shift.md R97). -/
  | shrv (T : LaneType) (vd vs1 vs2 : VIndex)
  /-- SHRV.M: the same, inactive lanes keep the old `vd` (44_masked_shift.md R122). -/
  | shrvM (T : LaneType) (vd vs1 vs2 : VIndex) (vm : MIndex)
  /-- RSHRI: constant-amount rounding right shift (43_rounding_shift.md R107). -/
  | rshri (T : LaneType) (vd vs1 : VIndex) (k : BitVec 6)
  /-- RSHRV: per-lane variable rounding right shift (43_rounding_shift.md R108). -/
  | rshrv (T : LaneType) (vd vs1 vs2 : VIndex)
  /-- MSHIFT: per-byte rotate-extract, always of lane type u64 (45_multishift.md R132). -/
  | mshift (vd vs1 vs2 : VIndex)
  deriving DecidableEq, Repr

end Sys2Proof
end

