-- ==== Sys2Proof/WellFormed.lean ====
section
/-!
DEFINITION. Which commands are well formed: the immediate amount lies in the lane
(30_encoding.md R60). Every other field of an `Instr` is legal at every value (R57, R59).
-/

namespace Sys2Proof

/-- `k <= w(T) - 1` (30_encoding.md R60). -/
def immInRange (T : LaneType) (k : BitVec 6) : Bool := k.toNat < T.width

/-- A well-formed command: one that some command word the decoder accepts stands for. -/
def Instr.wf : Instr → Bool
  | .shli T _ _ k => immInRange T k
  | .shliZ T _ _ k _ => immInRange T k
  | .shliM T _ _ k _ => immInRange T k
  | .shlu _ _ _ _ => true
  | .shlv _ _ _ _ => true
  | .shlvM _ _ _ _ _ => true
  | .shri T _ _ k => immInRange T k
  | .shriZ T _ _ k _ => immInRange T k
  | .shriM T _ _ k _ => immInRange T k
  | .shru _ _ _ _ => true
  | .shrv _ _ _ _ => true
  | .shrvM _ _ _ _ _ => true
  | .rshri T _ _ k => immInRange T k
  | .rshrv _ _ _ _ => true
  | .mshift _ _ _ => true

end Sys2Proof
end

