-- ==== Sys2Proof/Decode.lean ====
section
/-!
DEFINITION. The decoder, total on 32-bit words, and the encoder (30_encoding.md R51, R57 to R63).
-/

namespace Sys2Proof

/-! ### The fields of format VS (30_encoding.md R51) -/

def fieldKind (c : Command) : BitVec 2 := c.extractLsb' 30 2
def fieldSrc (c : Command) : BitVec 2 := c.extractLsb' 28 2
def fieldPm (c : Command) : BitVec 2 := c.extractLsb' 26 2
def fieldVm (c : Command) : MIndex := c.extractLsb' 23 3
def fieldLt (c : Command) : BitVec 3 := c.extractLsb' 20 3
def fieldOp2 (c : Command) : BitVec 6 := c.extractLsb' 14 6
def fieldVs1 (c : Command) : VIndex := c.extractLsb' 9 5
def fieldVd (c : Command) : VIndex := c.extractLsb' 4 5
def fieldMajor (c : Command) : BitVec 4 := c.extractLsb' 0 4

/-- `op2[4:0]`, a register index where the amount is in a register (30_encoding.md R58). -/
def fieldReg2 (c : Command) : BitVec 5 := c.extractLsb' 14 5

/-- The value every command has in its `major` field (30_encoding.md R52). -/
def majorVS : BitVec 4 := 0b1011#4

/-- The lane type a value of `lt` stands for: bit 2 the signedness, bits 1 and 0 the width
(30_encoding.md R57). -/
def laneTypeOf (lt : BitVec 3) : LaneType :=
  match lt.getLsbD 2, lt.getLsbD 1, lt.getLsbD 0 with
  | false, false, false => .u8
  | false, false, true => .u16
  | false, true, false => .u32
  | false, true, true => .u64
  | true, false, false => .i8
  | true, false, true => .i16
  | true, true, false => .i32
  | true, true, true => .i64

/-- The value of `lt` for a lane type (30_encoding.md R57). -/
def laneTypeCode : LaneType → BitVec 3
  | .u8 => 0b000#3
  | .u16 => 0b001#3
  | .u32 => 0b010#3
  | .u64 => 0b011#3
  | .i8 => 0b100#3
  | .i16 => 0b101#3
  | .i32 => 0b110#3
  | .i64 => 0b111#3

/-! ### The opcode map (30_encoding.md R59) -/

/-- The mnemonics of the opcode map. -/
inductive Mnemonic where
  | shli | shliZ | shliM | shlu | shlv | shlvM
  | shri | shriZ | shriM | shru | shrv | shrvM
  | rshri | rshrv | mshift
  deriving DecidableEq, Repr

/-- The mnemonic of a command. -/
def mnemonicOf : Instr → Mnemonic
  | .shli _ _ _ _ => .shli
  | .shliZ _ _ _ _ _ => .shliZ
  | .shliM _ _ _ _ _ => .shliM
  | .shlu _ _ _ _ => .shlu
  | .shlv _ _ _ _ => .shlv
  | .shlvM _ _ _ _ _ => .shlvM
  | .shri _ _ _ _ => .shri
  | .shriZ _ _ _ _ _ => .shriZ
  | .shriM _ _ _ _ _ => .shriM
  | .shru _ _ _ _ => .shru
  | .shrv _ _ _ _ => .shrv
  | .shrvM _ _ _ _ _ => .shrvM
  | .rshri _ _ _ _ => .rshri
  | .rshrv _ _ _ _ => .rshrv
  | .mshift _ _ _ => .mshift

/-- One row of the opcode map. -/
structure OpRow where
  op : Mnemonic
  pattern : Command
  mask : Command
  deriving DecidableEq, Repr

/-- A word is command X when `(c AND mask_X) = match_X` (30_encoding.md R59). -/
def OpRow.accepts (r : OpRow) (c : Command) : Bool := c &&& r.mask == r.pattern

/-- The opcode map, row by row as 30_encoding.md R59 has it. -/
def opcodeMap : List OpRow :=
  [ ⟨.shli,  0x0000000B#32, 0xFF80000F#32⟩,
    ⟨.shliZ, 0x0400000B#32, 0xFC00000F#32⟩,
    ⟨.shliM, 0x0800000B#32, 0xFC00000F#32⟩,
    ⟨.shlu,  0x1000000B#32, 0xFF88000F#32⟩,
    ⟨.shlv,  0x2000000B#32, 0xFF88000F#32⟩,
    ⟨.shlvM, 0x2800000B#32, 0xFC08000F#32⟩,
    ⟨.shri,  0x4000000B#32, 0xFF80000F#32⟩,
    ⟨.shriZ, 0x4400000B#32, 0xFC00000F#32⟩,
    ⟨.shriM, 0x4800000B#32, 0xFC00000F#32⟩,
    ⟨.shru,  0x5000000B#32, 0xFF88000F#32⟩,
    ⟨.shrv,  0x6000000B#32, 0xFF88000F#32⟩,
    ⟨.shrvM, 0x6800000B#32, 0xFC08000F#32⟩,
    ⟨.rshri, 0x8000000B#32, 0xFF80000F#32⟩,
    ⟨.rshrv, 0xA000000B#32, 0xFF88000F#32⟩,
    ⟨.mshift, 0xE030000B#32, 0xFFF8000F#32⟩ ]

/-! ### The decoder (30_encoding.md R63) -/

/-- What the decoder answers: a command, or the exception the word raises. -/
inductive Decoded where
  | command (i : Instr)
  | raises (e : Cause)
  deriving DecidableEq, Repr

/-- The command of mnemonic `op` whose operands are the fields of `c` (30_encoding.md R51, R59). -/
def operandsOf (op : Mnemonic) (c : Command) : Instr :=
  let T := laneTypeOf (fieldLt c)
  match op with
  | .shli => .shli T (fieldVd c) (fieldVs1 c) (fieldOp2 c)
  | .shliZ => .shliZ T (fieldVd c) (fieldVs1 c) (fieldOp2 c) (fieldVm c)
  | .shliM => .shliM T (fieldVd c) (fieldVs1 c) (fieldOp2 c) (fieldVm c)
  | .shlu => .shlu T (fieldVd c) (fieldVs1 c) (fieldReg2 c)
  | .shlv => .shlv T (fieldVd c) (fieldVs1 c) (fieldReg2 c)
  | .shlvM => .shlvM T (fieldVd c) (fieldVs1 c) (fieldReg2 c) (fieldVm c)
  | .shri => .shri T (fieldVd c) (fieldVs1 c) (fieldOp2 c)
  | .shriZ => .shriZ T (fieldVd c) (fieldVs1 c) (fieldOp2 c) (fieldVm c)
  | .shriM => .shriM T (fieldVd c) (fieldVs1 c) (fieldOp2 c) (fieldVm c)
  | .shru => .shru T (fieldVd c) (fieldVs1 c) (fieldReg2 c)
  | .shrv => .shrv T (fieldVd c) (fieldVs1 c) (fieldReg2 c)
  | .shrvM => .shrvM T (fieldVd c) (fieldVs1 c) (fieldReg2 c) (fieldVm c)
  | .rshri => .rshri T (fieldVd c) (fieldVs1 c) (fieldOp2 c)
  | .rshrv => .rshrv T (fieldVd c) (fieldVs1 c) (fieldReg2 c)
  | .mshift => .mshift (fieldVd c) (fieldVs1 c) (fieldReg2 c)

/-- The decoder, in the order of checks of 30_encoding.md R63. -/
def decode (c : Command) : Decoded :=
  if fieldMajor c = majorVS then
    match opcodeMap.find? (fun r => r.accepts c) with
    | none => .raises .illegalCommand
    | some r =>
      if fieldSrc c = 0b00#2 ∧ (laneTypeOf (fieldLt c)).width ≤ (fieldOp2 c).toNat then
        .raises .immOutOfRange
      else
        .command (operandsOf r.op c)
  else
    .raises .illegalCommand

/-- The host's view of the decoder: the instruction read from the word whose bits are `w`. Every command
is one word of 32 bits (30_encoding.md R50); bits at and above `nbits` are 0. -/
def decodeTableWord (nbits w : Nat) : Option Instr :=
  match decode (BitVec.ofNat 32 (w % 2 ^ nbits)) with
  | .command i => some i
  | .raises _ => none

/-! ### The encoder (30_encoding.md R51, R57 to R59) -/

/-- A command word from its fields, most significant field first (30_encoding.md R51). -/
def assemble (kind src pm : BitVec 2) (vm : MIndex) (lt : BitVec 3) (op2 : BitVec 6)
    (vs1 vd : VIndex) : Command :=
  kind ++ src ++ pm ++ vm ++ lt ++ op2 ++ vs1 ++ vd ++ majorVS

/-- A register index as the `op2` field: `op2[5]` is 0 (30_encoding.md R58). -/
def op2OfReg (r : BitVec 5) : BitVec 6 := 0b0#1 ++ r

/-- The command word of a command: `kind`, `src` and `pm` as 30_encoding.md R59 lists them. -/
def encode : Instr → Command
  | .shli T vd vs1 k => assemble 0b00#2 0b00#2 0b00#2 0b000#3 (laneTypeCode T) k vs1 vd
  | .shliZ T vd vs1 k vm => assemble 0b00#2 0b00#2 0b01#2 vm (laneTypeCode T) k vs1 vd
  | .shliM T vd vs1 k vm => assemble 0b00#2 0b00#2 0b10#2 vm (laneTypeCode T) k vs1 vd
  | .shlu T vd vs1 rs => assemble 0b00#2 0b01#2 0b00#2 0b000#3 (laneTypeCode T) (op2OfReg rs) vs1 vd
  | .shlv T vd vs1 vs2 => assemble 0b00#2 0b10#2 0b00#2 0b000#3 (laneTypeCode T) (op2OfReg vs2) vs1 vd
  | .shlvM T vd vs1 vs2 vm => assemble 0b00#2 0b10#2 0b10#2 vm (laneTypeCode T) (op2OfReg vs2) vs1 vd
  | .shri T vd vs1 k => assemble 0b01#2 0b00#2 0b00#2 0b000#3 (laneTypeCode T) k vs1 vd
  | .shriZ T vd vs1 k vm => assemble 0b01#2 0b00#2 0b01#2 vm (laneTypeCode T) k vs1 vd
  | .shriM T vd vs1 k vm => assemble 0b01#2 0b00#2 0b10#2 vm (laneTypeCode T) k vs1 vd
  | .shru T vd vs1 rs => assemble 0b01#2 0b01#2 0b00#2 0b000#3 (laneTypeCode T) (op2OfReg rs) vs1 vd
  | .shrv T vd vs1 vs2 => assemble 0b01#2 0b10#2 0b00#2 0b000#3 (laneTypeCode T) (op2OfReg vs2) vs1 vd
  | .shrvM T vd vs1 vs2 vm => assemble 0b01#2 0b10#2 0b10#2 vm (laneTypeCode T) (op2OfReg vs2) vs1 vd
  | .rshri T vd vs1 k => assemble 0b10#2 0b00#2 0b00#2 0b000#3 (laneTypeCode T) k vs1 vd
  | .rshrv T vd vs1 vs2 => assemble 0b10#2 0b10#2 0b00#2 0b000#3 (laneTypeCode T) (op2OfReg vs2) vs1 vd
  | .mshift vd vs1 vs2 => assemble 0b11#2 0b10#2 0b00#2 0b000#3 0b011#3 (op2OfReg vs2) vs1 vd

end Sys2Proof
end

