-- ==== Sys2Proof/Config.lean ====
section
/-!
DEFINITION. The implementation parameters and the one free value (00_scope.md R11).

`VLEN` is no constant of this file: it is the field `vgroups` of the state, which no command writes,
so that a statement about every state is a statement about every `VLEN` (00_scope.md R10,
70_reset_and_hazards.md R167).
-/

namespace Sys2Proof

/-- How many 64-bit groups a vector register of `State.reset` has, so that `VLEN` is 128 there.
DESIGN CHOICE, unsafe, log entry 1: the spec leaves `VLEN` open (00_scope.md R10); its programs take 128
(95_test_vectors.md section 3). -/
def Config.resetGroups : Nat := 2

/-- `LATENCY`, open in the spec; no rule and no definition of this model reads it
(70_reset_and_hazards.md R169). -/
opaque Config.latency : Nat

/-- The draw of 41_uniform_shift.md R91, a free value: the `vlen` bits that SHLU or SHRU writes when its
count is out of range. `draws` counts the draws taken so far, so that each execution has a draw of its
own; it may depend on the command, the data operand and the count too. Log entry 3. -/
opaque Config.drawVlen (vlen draws : Nat) (command : Command) (data : BitVec vlen)
  (count : BitVec 64) : BitVec vlen

end Sys2Proof
end

