-- ==== Sys2Proof/Machine/State.lean ====
section
/-!
DEFINITION. The state of the machine (10_state.md R21 to R35), the reasons a step can stop, and the
state after reset. The unit itself holds no state (R20): the state is that of the harness.
-/

namespace Sys2Proof.Machine

open Sys2Proof

/-- An exception as the unit reports it: the cause and the recorded value, which is the command word
(60_exceptions.md R141, R144). -/
structure Report where
  cause : Cause
  word : Command
  deriving DecidableEq, Repr

/-- The state of the harness. -/
structure State where
  /-- `VLEN / 64`, the static configuration that no command reads or writes (00_scope.md R10,
  10_state.md R31). -/
  vgroups : Nat
  /-- `VR[0..31]`, each `VLEN` bits (10_state.md R21). -/
  vr : Vector (BitVec (64 * vgroups)) 32
  /-- `MR[0..7]`, each `VLEN/8` bits (10_state.md R21, R24). -/
  mr : Vector (BitVec (8 * vgroups)) 8
  /-- `XR[0..31]`, each 64 bits (10_state.md R21, R25). -/
  xr : Vector (BitVec 64) 32
  /-- Which vector registers are written; the others are unwritten (10_state.md R27). -/
  vrWritten : Vector Bool 32
  /-- Which mask registers are written (10_state.md R27). -/
  mrWritten : Vector Bool 8
  /-- Which scalar registers are written (10_state.md R27). -/
  xrWritten : Vector Bool 32
  /-- The harness command counter, a byte offset into the stream (10_state.md R29). -/
  pc : BitVec 64
  /-- The exception the last command reported, if it reported one (10_state.md R33, R35;
  60_exceptions.md R148). -/
  pending : Option Report
  /-- The command stream; its first word is at `pc = 0` (10_state.md R29, 70_reset_and_hazards.md
  R168). -/
  stream : List Command
  /-- The model's own counter: how many draws of 41_uniform_shift.md R91 have been taken. Log entry 3. -/
  draws : Nat
  deriving DecidableEq, Repr

/-- `VLEN` (00_scope.md R10). -/
abbrev State.vlen (s : State) : Nat := 64 * s.vgroups

/-- The faults of the model. -/
inductive Fault where
  /-- `UNWRITTEN_READ` of 60_exceptions.md R147, naming the command and the register: raised by every
  command that reads a register marked unwritten, because "a command that reads an unwritten register has no
  defined result" (10_state.md R27). No run from `State.reset` meets it. Safe: the model stops where the
  hardware may go on. -/
  | unwrittenRead (command : Instr) (reg : RegName)
  deriving DecidableEq, Repr

/-- The refusals of the model. -/
inductive Refusal where
  /-- An instruction that has no meaning yet, by its mnemonic: no arm of `exec` answers it. Safe. -/
  | notModelled (mnemonic : String)
  /-- Raised by `step` where an exception is pending: the run has ended and what the enclosing core does next
  is outside the spec (60_exceptions.md R148, 70_reset_and_hazards.md R173). Safe. -/
  | runEndedByException
  /-- Raised by `step` where `pc` stands at the end of the stream: the run is completed
  (70_reset_and_hazards.md R173). Safe. -/
  | runCompleted
  /-- Raised by `step` where `pc` is neither the offset of a word of the stream nor its end; the spec's `pc`
  is always a multiple of 4 and comes to no such offset (10_state.md R29, 20_memory.md R44). Safe. -/
  | pcOutsideStream
  deriving DecidableEq, Repr

/-- The harness right after reset, word for word as 70_reset_and_hazards.md R166 has it, for a
configuration of `groups` 64-bit groups: every register unwritten, `pc = 0`, no exception pending. -/
def State.unwrittenReset (groups : Nat) : State where
  vgroups := groups
  vr := Vector.replicate 32 0
  mr := Vector.replicate 8 0
  xr := Vector.replicate 32 0
  vrWritten := Vector.replicate 32 false
  mrWritten := Vector.replicate 8 false
  xrWritten := Vector.replicate 32 false
  pc := 0
  pending := none
  stream := []
  draws := 0

/-- Reset followed by the launch premise that gives every register the value 0 (10_state.md R27,
70_reset_and_hazards.md R168). DESIGN CHOICE, unsafe, log entry 2: the spec gives the registers no value. -/
def State.launchedReset (groups : Nat) : State :=
  { State.unwrittenReset groups with
    vrWritten := Vector.replicate 32 true
    mrWritten := Vector.replicate 8 true
    xrWritten := Vector.replicate 32 true }

/-- The state the machine starts from: `State.launchedReset` at the configuration of log entry 1. -/
def State.reset : State := State.launchedReset Config.resetGroups

end Sys2Proof.Machine
end

