-- ==== Sys2Proof/Machine/Ops.lean ====
section
/-!
DEFINITION. The named operations on the state: reading and writing registers, completing a command, taking
an exception, fetching the command at `pc`, and what the enclosing core does before a run.
-/

namespace Sys2Proof.Machine

open Sys2Proof

/-- What a command ends in. -/
abbrev StepOutcome := Host.Outcome State Fault Refusal

/-! ### Registers (10_state.md R21, R27) -/

/-- `VR[i]`. -/
def State.vreg (s : State) (i : VIndex) : BitVec s.vlen := s.vr[i.toNat]

/-- `MR[i]`. -/
def State.mreg (s : State) (i : MIndex) : BitVec (8 * s.vgroups) := s.mr[i.toNat]

/-- `XR[i]`. -/
def State.xreg (s : State) (i : XIndex) : BitVec 64 := s.xr[i.toNat]

/-- Whether a register holds a value or is unwritten (10_state.md R27). -/
def State.written (s : State) : RegName → Bool
  | .v i => s.vrWritten[i.toNat]
  | .m i => s.mrWritten[i.toNat]
  | .x i => s.xrWritten[i.toNat]

/-- `VR[i] <- v`; the register is written from then on (10_state.md R27). -/
def State.writeV (s : State) (i : VIndex) (v : BitVec s.vlen) : State :=
  { s with
    vr := s.vr.set i.toNat v
    vrWritten := s.vrWritten.set i.toNat true }

/-! ### Reading an operand

Each reads one source register and hands its value on; a register that is unwritten ends the command in the
model fault `UNWRITTEN_READ` (60_exceptions.md R147), naming the command `c` and the register. -/

def withV (c : Instr) (s : State) (i : VIndex) (go : BitVec s.vlen → StepOutcome) : StepOutcome :=
  if s.written (.v i) then go (s.vreg i) else .fault (.unwrittenRead c (.v i))

def withM (c : Instr) (s : State) (i : MIndex) (go : BitVec (8 * s.vgroups) → StepOutcome) :
    StepOutcome :=
  if s.written (.m i) then go (s.mreg i) else .fault (.unwrittenRead c (.m i))

def withX (c : Instr) (s : State) (i : XIndex) (go : BitVec 64 → StepOutcome) : StepOutcome :=
  if s.written (.x i) then go (s.xreg i) else .fault (.unwrittenRead c (.x i))

/-! ### Completing a command, taking an exception -/

/-- `pc <- bits_64(pc + 4)` (10_state.md R29). -/
def State.nextPc (s : State) : BitVec 64 := s.pc + 4

/-- A command completes: `VR[vd] <- v`, the counter moves to the next word, and the unit reports no
exception (10_state.md R26, R29; 60_exceptions.md R141, cause code 0). -/
def State.complete (s : State) (vd : VIndex) (v : BitVec s.vlen) : State :=
  { s.writeV vd v with
    pc := s.nextPc
    pending := none }

/-- The draw the next out-of-range uniform shift takes (41_uniform_shift.md R91). -/
def State.draw (s : State) (c : Instr) (data : BitVec s.vlen) (count : BitVec 64) : BitVec s.vlen :=
  Config.drawVlen s.vlen s.draws (encode c) data count

/-- A command completes with a draw as its result, and the draw is used up (41_uniform_shift.md R91). -/
def State.completeDraw (s : State) (vd : VIndex) (v : BitVec s.vlen) : State :=
  { s.complete vd v with draws := s.draws + 1 }

/-- Taking an exception, the one way for every cause: nothing is written, `pc` keeps the offset of the
command, and the unit reports the cause and the command word (60_exceptions.md R140, R141, R144, R148). -/
def State.raise (s : State) (e : Cause) (word : Command) : State :=
  { s with pending := some ⟨e, word⟩ }

/-- The enclosing core goes on after an exception. The unit has no return command and an exception changes
no state that would be restored (60_exceptions.md R149); only the report is taken away. -/
def State.clearReport (s : State) : State := { s with pending := none }

/-- The cause code on the interface, 0 for a completed command (60_exceptions.md R141). -/
def State.causeCode (s : State) : Nat :=
  match s.pending with
  | none => 0
  | some r => r.cause.code

/-! ### The command at `pc` (10_state.md R29) -/

/-- Whether the run is completed: `pc = 4L` (70_reset_and_hazards.md R173). -/
def State.completed (s : State) : Bool := s.pc.toNat == 4 * s.stream.length

/-- The word at `pc`, if `pc` is the offset of a word of the stream (10_state.md R29). -/
def State.wordAtPc (s : State) : Option Command :=
  if s.pc.toNat % 4 = 0 then s.stream[s.pc.toNat / 4]? else none

/-! ### The enclosing core before a run (70_reset_and_hazards.md R168) -/

/-- A launch premise gives a vector register a value (10_state.md R27). -/
def State.launchV (s : State) (i : VIndex) (v : BitVec s.vlen) : State := s.writeV i v

/-- A launch premise gives a mask register a value (10_state.md R27). -/
def State.launchM (s : State) (i : MIndex) (v : BitVec (8 * s.vgroups)) : State :=
  { s with
    mr := s.mr.set i.toNat v
    mrWritten := s.mrWritten.set i.toNat true }

/-- A launch premise gives a scalar register a value (10_state.md R27). -/
def State.launchX (s : State) (i : XIndex) (v : BitVec 64) : State :=
  { s with
    xr := s.xr.set i.toNat v
    xrWritten := s.xrWritten.set i.toNat true }

/-- The command stream is placed with its first word at `pc = 0` (70_reset_and_hazards.md R168). -/
def State.placeStream (s : State) (words : List Command) : State := { s with stream := words }

/-- The words of a stream with `c` as its word number `n`; a shorter stream is filled up with words of
zeros, which are no commands (30_encoding.md R52). -/
def putWord (c : Command) : Nat → List Command → List Command
  | 0, [] => [c]
  | 0, _ :: ws => c :: ws
  | n + 1, [] => 0 :: putWord c n []
  | n + 1, w :: ws => w :: putWord c n ws

end Sys2Proof.Machine
end

