-- ==== Sys2Proof/Machine/Operands.lean ====
section
/-!
DEFINITION. How a register is sliced into lanes and bytes, what a lane's value is, the effective count of a
count lane, and the range check of an immediate amount (10_state.md R22, R23; 20_memory.md R41; 42_variable_shift.md R95;
30_encoding.md R60).
-/

namespace Sys2Proof.Machine

open Sys2Proof

/-! ### Lanes and bytes of a register -/

/-- The `w`-bit field number `i` of a register value: bits `[w*i + w - 1 : w*i]` (10_state.md R22). -/
def slice (w : Nat) {n : Nat} (v : BitVec n) (i : Nat) : BitVec w := v.extractLsb' (w * i) w

/-- `lane_T(v, i)` (00_scope.md R14, 10_state.md R22). -/
def lane (T : LaneType) {n : Nat} (v : BitVec n) (i : Nat) : BitVec T.width := slice T.width v i

/-- Byte `b` of a register value, bits `[8b+7 : 8b]` (20_memory.md R41). -/
def byte {n : Nat} (v : BitVec n) (b : Nat) : BitVec 8 := slice 8 v b

/-- `N(T) = VLEN / w(T)`, the number of lanes of a register of `n` bits (00_scope.md R10). -/
def laneCount (T : LaneType) (n : Nat) : Nat := n / T.width

/-- The `n`-bit value whose lowest `count` fields of `w` bits are `f 0`, `f 1`, …; all bits above
are 0. -/
def packFields {w : Nat} (n : Nat) (f : Nat → BitVec w) : Nat → BitVec n
  | 0 => 0
  | count + 1 => packFields n f count ||| ((f count).setWidth n <<< (w * count))

/-- `make_T(f)`: the value whose lane `i` of type `T` is `f i` (00_scope.md R14). -/
def makeLanes (T : LaneType) (n : Nat) (f : Nat → BitVec T.width) : BitVec n :=
  packFields n f (laneCount T n)

/-- The value whose byte `b` is `f b` (20_memory.md R41). -/
def makeBytes (n : Nat) (f : Nat → BitVec 8) : BitVec n := packFields n f (n / 8)

/-- The integer a lane holds: `u(x)` for an unsigned type, `s(x)` for a signed one (10_state.md R23). -/
def laneValue (T : LaneType) (x : BitVec T.width) : Int :=
  if T.signed then x.toInt else (x.toNat : Int)

/-! ### Amounts -/

/-- `CNT_w(s)`, the effective count of a count lane: its low `log2(w)` bits, whatever its signedness
(42_variable_shift.md R95). -/
def laneAmount (T : LaneType) (s : BitVec T.width) : Nat := (s.extractLsb' 0 T.log2Width).toNat

/-- The immediate amount of a command: handed on if it lies in `[0, w(T) - 1]`; otherwise the command takes
the exception `IMM_OUT_OF_RANGE` with its own word as the recorded value (30_encoding.md R60,
60_exceptions.md R143). -/
def withImm (c : Instr) (s : State) (T : LaneType) (k : BitVec 6) (go : Nat → StepOutcome) :
    StepOutcome :=
  if immInRange T k then go k.toNat else .next (s.raise .immOutOfRange (encode c))

end Sys2Proof.Machine
end

