-- ==== Sys2Proof/Machine/Flags.lean ====
section
/-!
DEFINITION. The unit has no flags (10_state.md R30). Its only predicates are the bits of a mask register, and
their only use is the predication gate (44_masked_shift.md R115).
-/

namespace Sys2Proof.Machine

open Sys2Proof

/-- Whether lane `i` is active: bit `i` of the mask (10_state.md R24, 00_scope.md R14). -/
def active {m : Nat} (mask : BitVec m) (i : Nat) : Bool := mask.getLsbD i

/-- `SELECT_T(m, a, b)`: active lanes from `a`, inactive lanes from `b` (44_masked_shift.md R115). -/
def selectLanes (T : LaneType) {m n : Nat} (mask : BitVec m) (a b : BitVec n) : BitVec n :=
  makeLanes T n fun i => if active mask i then lane T a i else lane T b i

end Sys2Proof.Machine
end

