-- ==== Sys2Proof/Machine/ConstantShift.lean ====
section
/-!
DEFINITION. The lane primitives `SHL_w` and `SHR_T`, the constant-amount form, and the commands SHLI and SHRI
(40_constant_shift.md).
-/

namespace Sys2Proof.Machine

open Sys2Proof

/-- `SHL_w(x, k) = bits_w(u(x) * 2^k)` (40_constant_shift.md R80). -/
def shiftLeft (T : LaneType) (x : BitVec T.width) (k : Nat) : BitVec T.width :=
  BitVec.ofNat T.width (x.toNat * 2 ^ k)

/-- `SHR_T(x, k) = bits_w(floor(v(x) / 2^k))` with `v` the unsigned or the signed value as the lane type
says: logical or arithmetic fill (40_constant_shift.md R81). -/
def shiftRight (T : LaneType) (x : BitVec T.width) (k : Nat) : BitVec T.width :=
  BitVec.ofInt T.width (laneValue T x / 2 ^ k)

/-- Every lane of `a` under `op` with the one amount `k`. -/
def mapLanes (T : LaneType) {n : Nat} (op : BitVec T.width → Nat → BitVec T.width) (a : BitVec n)
    (k : Nat) : BitVec n :=
  makeLanes T n fun i => op (lane T a i) k

/-- The constant-amount form: `VR[vd]` gets every lane of `VR[vs1]` under `op` with the immediate amount
(40_constant_shift.md R83, R84; 43_rounding_shift.md R107). -/
def constantForm (c : Instr) (T : LaneType) (op : BitVec T.width → Nat → BitVec T.width)
    (vd vs1 : VIndex) (k : BitVec 6) (s : State) : StepOutcome :=
  withImm c s T k fun amount =>
  withV c s vs1 fun a =>
  .next (s.complete vd (mapLanes T op a amount))

/-- SHLI (40_constant_shift.md R83). -/
def execShli (T : LaneType) (vd vs1 : VIndex) (k : BitVec 6) (s : State) : StepOutcome :=
  constantForm (.shli T vd vs1 k) T (shiftLeft T) vd vs1 k s

/-- SHRI (40_constant_shift.md R84). -/
def execShri (T : LaneType) (vd vs1 : VIndex) (k : BitVec 6) (s : State) : StepOutcome :=
  constantForm (.shri T vd vs1 k) T (shiftRight T) vd vs1 k s

end Sys2Proof.Machine
end

