-- ==== Sys2Proof/Machine/VariableShift.lean ====
section
/-!
DEFINITION. The per-lane variable form and the commands SHLV and SHRV (42_variable_shift.md).
-/

namespace Sys2Proof.Machine

open Sys2Proof

/-- Every lane of `a` under `op` with the effective count of the same lane of `counts`
(42_variable_shift.md R96, R97). -/
def zipLanes (T : LaneType) {n : Nat} (op : BitVec T.width → Nat → BitVec T.width)
    (a counts : BitVec n) : BitVec n :=
  makeLanes T n fun i => op (lane T a i) (laneAmount T (lane T counts i))

/-- The per-lane variable form (42_variable_shift.md R96, R97; 43_rounding_shift.md R108). -/
def variableForm (c : Instr) (T : LaneType) (op : BitVec T.width → Nat → BitVec T.width)
    (vd vs1 vs2 : VIndex) (s : State) : StepOutcome :=
  withV c s vs1 fun a =>
  withV c s vs2 fun counts =>
  .next (s.complete vd (zipLanes T op a counts))

/-- SHLV (42_variable_shift.md R96). -/
def execShlv (T : LaneType) (vd vs1 vs2 : VIndex) (s : State) : StepOutcome :=
  variableForm (.shlv T vd vs1 vs2) T (shiftLeft T) vd vs1 vs2 s

/-- SHRV (42_variable_shift.md R97). -/
def execShrv (T : LaneType) (vd vs1 vs2 : VIndex) (s : State) : StepOutcome :=
  variableForm (.shrv T vd vs1 vs2) T (shiftRight T) vd vs1 vs2 s

end Sys2Proof.Machine
end

