-- ==== Sys2Proof/Machine/MaskedShift.lean ====
section
/-!
DEFINITION. The zeroing and merging forms and their six commands (44_masked_shift.md). Each is the predication
gate applied to the unpredicated result (R116); a merging form always reads its base, the old `VR[vd]` (R125).
-/

namespace Sys2Proof.Machine

open Sys2Proof

/-- The zeroing constant-amount form: inactive lanes become zero (44_masked_shift.md R117, R118). -/
def zeroingForm (c : Instr) (T : LaneType) (op : BitVec T.width → Nat → BitVec T.width)
    (vd vs1 : VIndex) (k : BitVec 6) (vm : MIndex) (s : State) : StepOutcome :=
  withImm c s T k fun amount =>
  withV c s vs1 fun a =>
  withM c s vm fun mask =>
  .next (s.complete vd (selectLanes T mask (mapLanes T op a amount) 0))

/-- The merging constant-amount form: inactive lanes keep the base (44_masked_shift.md R119, R120). -/
def mergingForm (c : Instr) (T : LaneType) (op : BitVec T.width → Nat → BitVec T.width)
    (vd vs1 : VIndex) (k : BitVec 6) (vm : MIndex) (s : State) : StepOutcome :=
  withImm c s T k fun amount =>
  withV c s vs1 fun a =>
  withM c s vm fun mask =>
  withV c s vd fun base =>
  .next (s.complete vd (selectLanes T mask (mapLanes T op a amount) base))

/-- The merging per-lane variable form (44_masked_shift.md R121, R122). -/
def variableMergingForm (c : Instr) (T : LaneType) (op : BitVec T.width → Nat → BitVec T.width)
    (vd vs1 vs2 : VIndex) (vm : MIndex) (s : State) : StepOutcome :=
  withV c s vs1 fun a =>
  withV c s vs2 fun counts =>
  withM c s vm fun mask =>
  withV c s vd fun base =>
  .next (s.complete vd (selectLanes T mask (zipLanes T op a counts) base))

/-- SHLI.Z (44_masked_shift.md R117). -/
def execShliZ (T : LaneType) (vd vs1 : VIndex) (k : BitVec 6) (vm : MIndex) (s : State) :
    StepOutcome :=
  zeroingForm (.shliZ T vd vs1 k vm) T (shiftLeft T) vd vs1 k vm s

/-- SHRI.Z (44_masked_shift.md R118). -/
def execShriZ (T : LaneType) (vd vs1 : VIndex) (k : BitVec 6) (vm : MIndex) (s : State) :
    StepOutcome :=
  zeroingForm (.shriZ T vd vs1 k vm) T (shiftRight T) vd vs1 k vm s

/-- SHLI.M (44_masked_shift.md R119). -/
def execShliM (T : LaneType) (vd vs1 : VIndex) (k : BitVec 6) (vm : MIndex) (s : State) :
    StepOutcome :=
  mergingForm (.shliM T vd vs1 k vm) T (shiftLeft T) vd vs1 k vm s

/-- SHRI.M (44_masked_shift.md R120). -/
def execShriM (T : LaneType) (vd vs1 : VIndex) (k : BitVec 6) (vm : MIndex) (s : State) :
    StepOutcome :=
  mergingForm (.shriM T vd vs1 k vm) T (shiftRight T) vd vs1 k vm s

/-- SHLV.M (44_masked_shift.md R121). -/
def execShlvM (T : LaneType) (vd vs1 vs2 : VIndex) (vm : MIndex) (s : State) : StepOutcome :=
  variableMergingForm (.shlvM T vd vs1 vs2 vm) T (shiftLeft T) vd vs1 vs2 vm s

/-- SHRV.M (44_masked_shift.md R122). -/
def execShrvM (T : LaneType) (vd vs1 vs2 : VIndex) (vm : MIndex) (s : State) : StepOutcome :=
  variableMergingForm (.shrvM T vd vs1 vs2 vm) T (shiftRight T) vd vs1 vs2 vm s

end Sys2Proof.Machine
end

