-- ==== Sys2Proof/Machine/MultiShift.lean ====
section
/-!
DEFINITION. The rotation groups, the primitive `ROTR64` and the command MSHIFT (45_multishift.md).
-/

namespace Sys2Proof.Machine

open Sys2Proof

/-- `G_g(v)`, the rotation group number `g` (45_multishift.md R130). -/
def rotationGroup {n : Nat} (v : BitVec n) (g : Nat) : BitVec 64 := slice 64 v g

/-- `ROTR64(g, n)`: with `r = n mod 64`, the low `r` bits move to the top (45_multishift.md R131). -/
def rotr64 (g : BitVec 64) (n : Nat) : BitVec 64 := (g >>> (n % 64)) ||| (g <<< (64 - n % 64))

/-- The result of MSHIFT: register byte `p = 8g + j` is the low byte of group `g` rotated by index byte `p`
(45_multishift.md R132). -/
def rotateExtract {n : Nat} (a idx : BitVec n) : BitVec n :=
  makeBytes n fun p => (rotr64 (rotationGroup a (p / 8)) (byte idx p).toNat).extractLsb' 0 8

/-- MSHIFT (45_multishift.md R132). -/
def execMshift (vd vs1 vs2 : VIndex) (s : State) : StepOutcome :=
  withV (.mshift vd vs1 vs2) s vs1 fun a =>
  withV (.mshift vd vs1 vs2) s vs2 fun idx =>
  .next (s.complete vd (rotateExtract a idx))

end Sys2Proof.Machine
end

