-- ==== Sys2Proof/Machine/RoundingShift.lean ====
section
/-!
DEFINITION. The rounding lane primitive `RND_T` and the commands RSHRI and RSHRV (43_rounding_shift.md).
-/

namespace Sys2Proof.Machine

open Sys2Proof

/-- `RND_T(x, k)`: the truncating shift plus the half bit `x[k-1]`, the identity for `k = 0`
(43_rounding_shift.md R105; 90_conflicts.md C1 and C2). -/
def roundRight (T : LaneType) (x : BitVec T.width) (k : Nat) : BitVec T.width :=
  if k = 0 then x
  else BitVec.ofInt T.width (laneValue T (shiftRight T x k) + ((x.getLsbD (k - 1)).toNat : Int))

/-- RSHRI (43_rounding_shift.md R107). -/
def execRshri (T : LaneType) (vd vs1 : VIndex) (k : BitVec 6) (s : State) : StepOutcome :=
  constantForm (.rshri T vd vs1 k) T (roundRight T) vd vs1 k s

/-- RSHRV (43_rounding_shift.md R108). -/
def execRshrv (T : LaneType) (vd vs1 vs2 : VIndex) (s : State) : StepOutcome :=
  variableForm (.rshrv T vd vs1 vs2) T (roundRight T) vd vs1 vs2 s

end Sys2Proof.Machine
end

