-- ==== Sys2Proof/Machine/UniformShift.lean ====
section
/-!
DEFINITION. The runtime-uniform form and the commands SHLU and SHRU (41_uniform_shift.md).
-/

namespace Sys2Proof.Machine

open Sys2Proof

/-- The runtime-uniform form: the count is `u(XR[rs])`, neither wrapped nor clamped; where it is out of range the
whole destination is a draw (41_uniform_shift.md R90 to R94). -/
def uniformForm (c : Instr) (T : LaneType) (op : BitVec T.width → Nat → BitVec T.width)
    (vd vs1 : VIndex) (rs : XIndex) (s : State) : StepOutcome :=
  withV c s vs1 fun a =>
  withX c s rs fun count =>
  if count.toNat < T.width then
    .next (s.complete vd (mapLanes T op a count.toNat))
  else
    .next (s.completeDraw vd (s.draw c a count))

/-- SHLU (41_uniform_shift.md R92). -/
def execShlu (T : LaneType) (vd vs1 : VIndex) (rs : XIndex) (s : State) : StepOutcome :=
  uniformForm (.shlu T vd vs1 rs) T (shiftLeft T) vd vs1 rs s

/-- SHRU (41_uniform_shift.md R93). -/
def execShru (T : LaneType) (vd vs1 : VIndex) (rs : XIndex) (s : State) : StepOutcome :=
  uniformForm (.shru T vd vs1 rs) T (shiftRight T) vd vs1 rs s

end Sys2Proof.Machine
end

