-- ==== Sys2Proof/Machine/Dispatch.lean ====
section
/-!
DEFINITION. What each command does: one arm for each constructor of `Instr`.
-/

namespace Sys2Proof.Machine

open Sys2Proof

def exec (i : Instr) (s : State) : Host.Outcome State Fault Refusal :=
  match i with
  | .shli T vd vs1 k => Sys2Proof.Machine.execShli T vd vs1 k s
  | .shliZ T vd vs1 k vm => Sys2Proof.Machine.execShliZ T vd vs1 k vm s
  | .shliM T vd vs1 k vm => Sys2Proof.Machine.execShliM T vd vs1 k vm s
  | .shlu T vd vs1 rs => Sys2Proof.Machine.execShlu T vd vs1 rs s
  | .shlv T vd vs1 vs2 => Sys2Proof.Machine.execShlv T vd vs1 vs2 s
  | .shlvM T vd vs1 vs2 vm => Sys2Proof.Machine.execShlvM T vd vs1 vs2 vm s
  | .shri T vd vs1 k => Sys2Proof.Machine.execShri T vd vs1 k s
  | .shriZ T vd vs1 k vm => Sys2Proof.Machine.execShriZ T vd vs1 k vm s
  | .shriM T vd vs1 k vm => Sys2Proof.Machine.execShriM T vd vs1 k vm s
  | .shru T vd vs1 rs => Sys2Proof.Machine.execShru T vd vs1 rs s
  | .shrv T vd vs1 vs2 => Sys2Proof.Machine.execShrv T vd vs1 vs2 s
  | .shrvM T vd vs1 vs2 vm => Sys2Proof.Machine.execShrvM T vd vs1 vs2 vm s
  | .rshri T vd vs1 k => Sys2Proof.Machine.execRshri T vd vs1 k s
  | .rshrv T vd vs1 vs2 => Sys2Proof.Machine.execRshrv T vd vs1 vs2 s
  | .mshift vd vs1 vs2 => Sys2Proof.Machine.execMshift vd vs1 vs2 s

end Sys2Proof.Machine
end

