-- ==== Sys2Proof/Machine/Issue.lean ====
section
/-!
DEFINITION. Issuing a command word to the unit, and running the word at `pc` (10_state.md R29, R33).
-/

namespace Sys2Proof.Machine

open Sys2Proof

/-- One transaction: the enclosing core issues the word `c`, which completes or raises the exception its
decoding gives (10_state.md R33, 60_exceptions.md R140). The report of an earlier exception plays no part
(R149). -/
def issue (c : Command) (s : State) : StepOutcome :=
  match decode c with
  | .command i => exec i s
  | .raises e => .next (s.raise e c)

/-- One step of a run: the command at `pc` is issued. After a reported exception and at the end of the
stream the run has ended (70_reset_and_hazards.md R173). -/
def runCommand (s : State) : StepOutcome :=
  if s.pending.isSome then .refused .runEndedByException
  else match s.wordAtPc with
    | some c => issue c s
    | none => .refused (if s.completed then .runCompleted else .pcOutsideStream)

end Sys2Proof.Machine
end

