-- ==== Sys2Proof/Machine/Step.lean ====
section
/-!
DEFINITION. One step of the machine, and the placing of a word where the next step takes it from.
-/

namespace Sys2Proof.Machine

open Sys2Proof

/-- One step: the command at `pc` (10_state.md R29). -/
def step (s : State) : Host.Outcome State Fault Refusal := runCommand s

/-- `s` with the word whose bits are `w` in the stream at `pc`, and no report pending, so that the next step
runs it. A command is one word of 32 bits; bits at and above `nbits` are 0. -/
def State.withFetchWord (s : State) (nbits w : Nat) : State :=
  { s.clearReport with
    stream := putWord (BitVec.ofNat 32 (w % 2 ^ nbits)) (s.pc.toNat / 4) s.stream }

end Sys2Proof.Machine
end

