-- ==== Sys2Proof/Safety.lean ====
section
/-!
DEFINITION. The terms in which statements about the machine are made: what a command reads and writes, what it
leaves unchanged, and the invariants of a run.
-/

namespace Sys2Proof.Machine

open Sys2Proof

/-- The vector register a command writes, `vd` (10_state.md R26). -/
def destOf : Instr → VIndex
  | .shli _ vd _ _ => vd
  | .shliZ _ vd _ _ _ => vd
  | .shliM _ vd _ _ _ => vd
  | .shlu _ vd _ _ => vd
  | .shlv _ vd _ _ => vd
  | .shlvM _ vd _ _ _ => vd
  | .shri _ vd _ _ => vd
  | .shriZ _ vd _ _ _ => vd
  | .shriM _ vd _ _ _ => vd
  | .shru _ vd _ _ => vd
  | .shrv _ vd _ _ => vd
  | .shrvM _ vd _ _ _ => vd
  | .rshri _ vd _ _ => vd
  | .rshrv _ vd _ _ => vd
  | .mshift vd _ _ => vd

/-- The registers a command reads, as the exceptions entry of its rule lists them (10_state.md R21, R28). -/
def sourcesOf : Instr → List RegName
  | .shli _ _ vs1 _ => [.v vs1]
  | .shliZ _ _ vs1 _ vm => [.v vs1, .m vm]
  | .shliM _ vd vs1 _ vm => [.v vs1, .m vm, .v vd]
  | .shlu _ _ vs1 rs => [.v vs1, .x rs]
  | .shlv _ _ vs1 vs2 => [.v vs1, .v vs2]
  | .shlvM _ vd vs1 vs2 vm => [.v vs1, .v vs2, .m vm, .v vd]
  | .shri _ _ vs1 _ => [.v vs1]
  | .shriZ _ _ vs1 _ vm => [.v vs1, .m vm]
  | .shriM _ vd vs1 _ vm => [.v vs1, .m vm, .v vd]
  | .shru _ _ vs1 rs => [.v vs1, .x rs]
  | .shrv _ _ vs1 vs2 => [.v vs1, .v vs2]
  | .shrvM _ vd vs1 vs2 vm => [.v vs1, .v vs2, .m vm, .v vd]
  | .rshri _ _ vs1 _ => [.v vs1]
  | .rshrv _ _ vs1 vs2 => [.v vs1, .v vs2]
  | .mshift _ vs1 vs2 => [.v vs1, .v vs2]

/-- Every register the command reads holds a value (10_state.md R27). -/
def Ready (s : State) (i : Instr) : Prop := ∀ r ∈ sourcesOf i, s.written r = true

/-- `t` differs from `s` at most in what a completing command with destination `vd` may change: every other
vector register has the same bits, every mask and scalar register and the stream are the same, `VLEN` is the
same, and `vd` is the only register that becomes written (10_state.md R26, R27). The counter, the report and the
model's draw counter are not mentioned. -/
def OnlyVdChanged (s t : State) (vd : VIndex) : Prop :=
  t.vgroups = s.vgroups ∧
  (∀ r, r ≠ vd → (t.vreg r).toNat = (s.vreg r).toNat) ∧
  (∀ m, (t.mreg m).toNat = (s.mreg m).toNat) ∧
  (∀ x, t.xreg x = s.xreg x) ∧
  (∀ r, t.written r = (s.written r || r == .v vd)) ∧
  t.stream = s.stream

/-- From `s` a command with destination `vd` completes in `t`: only `VR[vd]` is written, the counter moves on by
4, no exception is reported, and no draw is used (10_state.md R26, R29). -/
def CompletesIn (s t : State) (vd : VIndex) : Prop :=
  OnlyVdChanged s t vd ∧ t.pc = s.pc + 4 ∧ t.pending = none ∧ t.draws = s.draws

/-- Every register of the harness holds a value: what 70_reset_and_hazards.md R168 asks of the enclosing
core before the first command, for all registers. -/
def AllWritten (s : State) : Prop := ∀ r, s.written r = true

/-- The invariant of a run: `VLEN` is at least 64 (00_scope.md R10); `pc` is the offset of a word of the stream or
its end (10_state.md R29, 70_reset_and_hazards.md R173); and where an exception is pending, the recorded word is
the word at `pc` and its decoding raises the recorded cause (60_exceptions.md R144, R148). -/
def State.Inv (s : State) : Prop :=
  0 < s.vgroups ∧
  s.pc.toNat % 4 = 0 ∧
  s.pc.toNat ≤ 4 * s.stream.length ∧
  ∀ r ∈ s.pending, s.stream[s.pc.toNat / 4]? = some r.word ∧ decode r.word = .raises r.cause

/-! ### Forms the spec sets beside its rules -/

/-- The mnemonics whose amount is an immediate (30_encoding.md R60). -/
def takesImmediate : Mnemonic → Bool
  | .shli | .shliZ | .shliM | .shri | .shriZ | .shriM | .rshri => true
  | .shlu | .shlv | .shlvM | .shru | .shrv | .shrvM | .rshrv | .mshift => false

/-- Whether the command is a merging one, `pm = 10`, whose `vd` is a source too (30_encoding.md R55). -/
def isMerging : Instr → Bool
  | .shliM _ _ _ _ _ | .shlvM _ _ _ _ _ | .shriM _ _ _ _ _ | .shrvM _ _ _ _ _ => true
  | .shli _ _ _ _ | .shliZ _ _ _ _ _ | .shlu _ _ _ _ | .shlv _ _ _ _ => false
  | .shri _ _ _ _ | .shriZ _ _ _ _ _ | .shru _ _ _ _ | .shrv _ _ _ _ => false
  | .rshri _ _ _ _ | .rshrv _ _ _ _ | .mshift _ _ _ => false

/-- The same command with another destination. -/
def withDest (d : VIndex) : Instr → Instr
  | .shli T _ vs1 k => .shli T d vs1 k
  | .shliZ T _ vs1 k vm => .shliZ T d vs1 k vm
  | .shliM T _ vs1 k vm => .shliM T d vs1 k vm
  | .shlu T _ vs1 rs => .shlu T d vs1 rs
  | .shlv T _ vs1 vs2 => .shlv T d vs1 vs2
  | .shlvM T _ vs1 vs2 vm => .shlvM T d vs1 vs2 vm
  | .shri T _ vs1 k => .shri T d vs1 k
  | .shriZ T _ vs1 k vm => .shriZ T d vs1 k vm
  | .shriM T _ vs1 k vm => .shriM T d vs1 k vm
  | .shru T _ vs1 rs => .shru T d vs1 rs
  | .shrv T _ vs1 vs2 => .shrv T d vs1 vs2
  | .shrvM T _ vs1 vs2 vm => .shrvM T d vs1 vs2 vm
  | .rshri T _ vs1 k => .rshri T d vs1 k
  | .rshrv T _ vs1 vs2 => .rshrv T d vs1 vs2
  | .mshift _ vs1 vs2 => .mshift d vs1 vs2

/-- The bits of a register as a number, so that registers of two states can be compared. -/
def State.regBits (s : State) : RegName → Nat
  | .v i => (s.vreg i).toNat
  | .m i => (s.mreg i).toNat
  | .x i => (s.xreg i).toNat

/-- `max(T)`, the largest value of a lane type (10_state.md R23). -/
def laneMax (T : LaneType) : Int :=
  if T.signed then 2 ^ (T.width - 1) - 1 else 2 ^ T.width - 1

/-- `min(T)`, the smallest value of a lane type (10_state.md R23). -/
def laneMin (T : LaneType) : Int := if T.signed then -2 ^ (T.width - 1) else 0

/-- The wrapping-addition form of the rounding shift, the loser of conflict C1 (43_rounding_shift.md
R109). No definition of the machine uses it. -/
def wrappingRound (T : LaneType) (x : BitVec T.width) (k : Nat) : BitVec T.width :=
  shiftRight T (BitVec.ofInt T.width (laneValue T x + 2 ^ (k - 1))) k

/-- The staged shifter of 42_variable_shift.md R98 after its first `stages` stages: stage `b` shifts by `2^b`
where bit `b` of the count lane is 1. No definition of the machine uses it. -/
def stagedShift (T : LaneType) (op : BitVec T.width → Nat → BitVec T.width)
    (x count : BitVec T.width) : Nat → BitVec T.width
  | 0 => x
  | b + 1 =>
    if count.getLsbD b then op (stagedShift T op x count b) (2 ^ b) else stagedShift T op x count b

end Sys2Proof.Machine
end

