-- ==== Sys2Proof/Certificates/Slice0/Obligations.lean ====
section
/-!
DEFINITION. The statements about the machine, for the provers.
-/

open Sys2Proof Sys2Proof.Machine

/-! ### Fetching, decoding, encoding -/

/-- When no exception is pending and the word at `pc` decodes to a command, one step runs that command
(10_state.md R29, R33). -/
def Obligations.StepRunsDecodedCommand : Prop :=
  ∀ (s : State) (c : Command) (i : Instr),
    s.pending = none → s.pc.toNat % 4 = 0 → s.stream[s.pc.toNat / 4]? = some c →
    decode c = .command i → step s = exec i s

/-- When no exception is pending and the word at `pc` decodes to an exception, one step leaves the state as it
was, `pc` included, but for the pair of the cause and the command word (60_exceptions.md R144, R148). -/
def Obligations.StepTakesDecodeException : Prop :=
  ∀ (s : State) (c : Command) (e : Cause),
    s.pending = none → s.pc.toNat % 4 = 0 → s.stream[s.pc.toNat / 4]? = some c →
    decode c = .raises e → step s = .next { s with pending := some ⟨e, c⟩ }

/-- The word of every command decodes to that command, with every operand, or, if its immediate is out of
range, to `IMM_OUT_OF_RANGE` (30_encoding.md R51, R57 to R60). -/
def Obligations.DecodeOfEncode : Prop :=
  ∀ i : Instr, decode (encode i) = if i.wf then .command i else .raises .immOutOfRange

/-- A word that decodes to a command is that command's own word, and the command is well formed: no bit of
a word is dropped (30_encoding.md R51, R57 to R60). -/
def Obligations.EncodeOfDecode : Prop :=
  ∀ (c : Command) (i : Instr), decode c = .command i → encode i = c ∧ i.wf = true

/-- Exactly the reserved words of 30_encoding.md R62 raise `ILLEGAL_COMMAND`. -/
def Obligations.IllegalWordsExactly : Prop :=
  ∀ c : Command,
    (decode c = .raises .illegalCommand ↔ ∀ r ∈ opcodeMap, c &&& r.mask ≠ r.pattern) ∧
    (decode c = .raises .illegalCommand ↔
      fieldMajor c ≠ 0b1011#4 ∨
      fieldSrc c = 0b11#2 ∨
      fieldPm c = 0b11#2 ∨
      (fieldPm c = 0b01#2 ∧ fieldSrc c ≠ 0b00#2) ∨
      (fieldPm c ≠ 0b00#2 ∧ fieldSrc c = 0b01#2) ∨
      (fieldPm c ≠ 0b00#2 ∧ (fieldKind c = 0b10#2 ∨ fieldKind c = 0b11#2)) ∨
      (fieldKind c = 0b10#2 ∧ fieldSrc c = 0b01#2) ∨
      (fieldKind c = 0b11#2 ∧ fieldSrc c ≠ 0b10#2) ∨
      (fieldVm c ≠ 0b000#3 ∧ fieldPm c = 0b00#2) ∨
      ((fieldOp2 c).getLsbD 5 = true ∧ fieldSrc c ≠ 0b00#2) ∨
      (fieldKind c = 0b11#2 ∧ fieldLt c ≠ 0b011#3))

/-- `IMM_OUT_OF_RANGE` is raised by exactly the words that match a row with an immediate and have
`k >= w(T)` (30_encoding.md R60); a word that matches no row reports `ILLEGAL_COMMAND` whatever its immediate
(60_exceptions.md R145). -/
def Obligations.ImmediateRangeAtDecode : Prop :=
  ∀ c : Command,
    (decode c = .raises .immOutOfRange ↔
      (∃ r ∈ opcodeMap, c &&& r.mask = r.pattern ∧ takesImmediate r.op = true) ∧
      (laneTypeOf (fieldLt c)).width ≤ (fieldOp2 c).toNat) ∧
    ((∀ r ∈ opcodeMap, c &&& r.mask ≠ r.pattern) → decode c = .raises .illegalCommand)

/-- Encoding examples of the spec, and one legal and one illegal boundary word (30_encoding.md R66;
95_test_vectors.md D-E14, D-E16, D-E18). -/
def Obligations.SpecWordsDecode : Prop :=
  decode 0x0000C41B#32 = .command (.shli .u8 1 2 3) ∧
  decode 0x4053C63B#32 = .command (.shri .i16 3 3 15) ∧
  decode 0x0521CA4B#32 = .command (.shliZ .u32 4 5 7 2) ∧
  decode 0x48C08E6B#32 = .command (.shriM .i8 6 7 2 1) ∧
  decode 0x1032928B#32 = .command (.shlu .u64 8 9 10) ∧
  decode 0x606358BB#32 = .command (.shrv .i32 11 12 13) ∧
  decode 0x29941EEB#32 = .command (.shlvM .u16 14 15 16 3) ∧
  decode 0x8040651B#32 = .command (.rshri .i8 17 18 1) ∧
  decode 0xA025693B#32 = .command (.rshrv .u32 19 20 21) ∧
  decode 0xE0362F6B#32 = .command (.mshift 22 23 24) ∧
  decode 0x003FC00B#32 = .command (.shli .u64 0 0 63) ∧
  decode 0x0002000B#32 = .raises .immOutOfRange ∧
  decode 0x0082000B#32 = .raises .illegalCommand

/-! ### Reset, and the invariants of a run -/

/-- The harness right after reset, for every configuration: every register unwritten, so that every well-formed
command faults there, `pc` 0, nothing pending (70_reset_and_hazards.md R166). -/
def Obligations.UnwrittenResetAsTheSpecSays : Prop :=
  ∀ g : Nat,
    (∀ r, (State.unwrittenReset g).written r = false) ∧
    (∀ i : Instr, i.wf = true →
      ∃ r ∈ sourcesOf i, exec i (State.unwrittenReset g) = .fault (.unwrittenRead i r)) ∧
    (State.unwrittenReset g).pc = 0 ∧
    (State.unwrittenReset g).pending = none

/-- The model's own choice, log entries 1 and 2, not a rule of the spec: the state the model starts from differs
from the spec's reset in nothing but its launch premises, which give every register the value 0. -/
def Obligations.ResetHoldsZeroEverywhere : Prop :=
  State.reset.vlen = 128 ∧ State.reset.pc = 0 ∧ State.reset.pending = none ∧ State.reset.stream = [] ∧
  ∀ r, State.reset.written r = true ∧ State.reset.regBits r = 0

/-- The invariant of a run holds in the state the model starts from and in the spec's reset of every
configuration of at least one group (00_scope.md R10, 70_reset_and_hazards.md R166). -/
def Obligations.ResetMeetsInvariant : Prop :=
  State.reset.Inv ∧ ∀ g, 0 < g → (State.unwrittenReset g).Inv

/-- Every step keeps the invariant of a run: `VLEN` is at least 64, `pc` is a multiple of 4 within the stream or
at its end, and a pending exception is the one the word at `pc` raises (00_scope.md R10, 10_state.md R29,
60_exceptions.md R148). -/
def Obligations.StepKeepsInvariant : Prop :=
  ∀ s t : State, s.Inv → step s = .next t → t.Inv

/-- A command that completes writes its `vd` and no other register; a command that raises an exception writes
nothing (10_state.md R26). -/
def Obligations.CompletingWritesOnlyDestination : Prop :=
  ∀ (i : Instr) (s t : State), exec i s = .next t →
    (t.pending = none → OnlyVdChanged s t (destOf i)) ∧
    (t.pending ≠ none → t = { s with pending := t.pending })

/-- An issued word either completes, with no exception reported and the counter moved on, or raises the one
exception its decoding gives, and then nothing else changes; a word whose decoding gives an exception raises it in every
state, whatever registers are written (60_exceptions.md R140). -/
def Obligations.IssueCompletesOrRaisesOne : Prop :=
  (∀ (c : Command) (s t : State), issue c s = .next t →
    ((∃ i, decode c = .command i ∧ OnlyVdChanged s t (destOf i)) ∧ t.pending = none ∧
      t.pc = s.pc + 4) ∨
    (∃ e, decode c = .raises e ∧ t = { s with pending := some ⟨e, c⟩ })) ∧
  (∀ (c : Command) (s : State) (e : Cause), decode c = .raises e →
    issue c s = .next { s with pending := some ⟨e, c⟩ })

/-- The counter stays a multiple of 4; it moves on by 4 modulo 2^64 when a command completes and stays when
one raises an exception (10_state.md R29). -/
def Obligations.CounterMovesOnOrStays : Prop :=
  ∀ s t : State, s.pc.toNat % 4 = 0 → step s = .next t →
    t.pc.toNat % 4 = 0 ∧
    ((t.pending = none ∧ t.pc.toNat = (s.pc.toNat + 4) % 2 ^ 64) ∨
     (t.pending.isSome = true ∧ t.pc = s.pc))

/-- From a state whose registers are all written no step faults, and every step leaves them all written: what
70_reset_and_hazards.md R168 asks for before a run is enough for the whole run. -/
def Obligations.WrittenRunNeverFaults : Prop :=
  ∀ s : State, AllWritten s →
    (∀ f, step s ≠ .fault f) ∧ (∀ t, step s = .next t → AllWritten t)

/-- A command faults exactly when it reads an unwritten register, and the fault names the command and an
unwritten register it reads (60_exceptions.md R147). -/
def Obligations.UnwrittenReadFaults : Prop :=
  ∀ (i : Instr) (s : State), i.wf = true →
    ((∃ f, exec i s = .fault f) ↔ ∃ r ∈ sourcesOf i, s.written r = false) ∧
    (∀ f, exec i s = .fault f →
      ∃ r ∈ sourcesOf i, s.written r = false ∧ f = .unwrittenRead i r)

/-- A merging command reads its base whatever the mask holds: an unwritten `vd` is a fault. A zeroing command
does not read `vd`: it completes with `vd` unwritten (44_masked_shift.md R125). -/
def Obligations.MergeBaseAlwaysRead : Prop :=
  ∀ (T : LaneType) (vd vs1 vs2 : VIndex) (k : BitVec 6) (vm : MIndex) (s : State),
    k.toNat < T.width → s.written (.v vs1) = true → s.written (.v vs2) = true →
    s.written (.m vm) = true → s.written (.v vd) = false →
    exec (.shliM T vd vs1 k vm) s = .fault (.unwrittenRead (.shliM T vd vs1 k vm) (.v vd)) ∧
    exec (.shriM T vd vs1 k vm) s = .fault (.unwrittenRead (.shriM T vd vs1 k vm) (.v vd)) ∧
    exec (.shlvM T vd vs1 vs2 vm) s = .fault (.unwrittenRead (.shlvM T vd vs1 vs2 vm) (.v vd)) ∧
    exec (.shrvM T vd vs1 vs2 vm) s = .fault (.unwrittenRead (.shrvM T vd vs1 vs2 vm) (.v vd)) ∧
    (∃ t, exec (.shliZ T vd vs1 k vm) s = .next t ∧ CompletesIn s t vd) ∧
    (∃ t, exec (.shriZ T vd vs1 k vm) s = .next t ∧ CompletesIn s t vd)

/-- When a step of a run stops without a fault: after a reported exception, or at the end of the stream, and
nowhere else (70_reset_and_hazards.md R173). -/
def Obligations.RunEndsWhereTheSpecSays : Prop :=
  ∀ s : State, s.Inv →
    (s.pending.isSome = true → step s = .refused .runEndedByException) ∧
    (s.pending = none → s.pc.toNat = 4 * s.stream.length → step s = .refused .runCompleted) ∧
    (s.pending = none → s.pc.toNat ≠ 4 * s.stream.length → ∀ r, step s ≠ .refused r)

/-- After an exception the next command issued does what it would do as the first (60_exceptions.md
R149). -/
def Obligations.NextCommandAsIfFirst : Prop :=
  ∀ (c : Command) (s : State) (p : Option Report), issue c { s with pending := p } = issue c s

/-- Every command of the opcode map completes for every lane value, count, index and mask: it is well formed and
the registers it reads are written, and nothing else is asked (60_exceptions.md R146). -/
def Obligations.NoDataDependentException : Prop :=
  ∀ (i : Instr) (s : State), i.wf = true → Ready s i →
    ∃ t, exec i s = .next t ∧ t.pending = none ∧ t.pc = s.pc + 4 ∧ OnlyVdChanged s t (destOf i)

/-- A command whose immediate is out of range takes the exception that its own word raises: the cause
`IMM_OUT_OF_RANGE` and that word are reported, `pc` stays and nothing is written, whether or not its sources are written
(60_exceptions.md R140, R143; a command given as such rather than as a word is log entry 8). -/
def Obligations.OutOfRangeImmediateTakesException : Prop :=
  ∀ (i : Instr) (s : State), i.wf = false →
    decode (encode i) = .raises .immOutOfRange ∧
    exec i s = .next { s with pending := some ⟨.immOutOfRange, encode i⟩ } ∧
    issue (encode i) s = exec i s

/-- The result of a command that takes no draw is a function of the command and the values of its source
operands alone (10_state.md R20). -/
def Obligations.ResultIsFunctionOfOperands : Prop :=
  ∀ (i : Instr) (s s' t t' : State), i.wf = true → s.vgroups = s'.vgroups →
    (∀ r ∈ sourcesOf i, s.regBits r = s'.regBits r) →
    exec i s = .next t → exec i s' = .next t' → t.draws = s.draws →
    (t.vreg (destOf i)).toNat = (t'.vreg (destOf i)).toNat

/-- Sources are read before the destination is written: whatever register `vd` is, one of the sources among
them, the result is the same as with another destination; a merging command needs the same base there
(10_state.md R28). -/
def Obligations.SourcesReadBeforeDestination : Prop :=
  ∀ (i : Instr) (d : VIndex) (s t t' : State), i.wf = true →
    (isMerging i = true → s.vreg d = s.vreg (destOf i)) →
    exec i s = .next t → exec (withDest d i) s = .next t' → t.draws = s.draws →
    (t.vreg (destOf i)).toNat = (t'.vreg d).toNat

/-! ### What each command does -/

/-- SHLI completes, and lane `i` of the result is `bits_w(u(x) * 2^k)` (40_constant_shift.md R83). -/
def Obligations.ShliResult : Prop :=
  ∀ (T : LaneType) (vd vs1 : VIndex) (k : BitVec 6) (s : State),
    k.toNat < T.width → s.written (.v vs1) = true →
    ∃ t, exec (.shli T vd vs1 k) s = .next t ∧ CompletesIn s t vd ∧
      ∀ i < laneCount T s.vlen, lane T (t.vreg vd) i =
        BitVec.ofNat T.width ((lane T (s.vreg vs1) i).toNat * 2 ^ k.toNat)

/-- SHRI completes, and lane `i` of the result is `bits_w(floor(v(x) / 2^k))`, with the lane type's own value
`v` (40_constant_shift.md R84). -/
def Obligations.ShriResult : Prop :=
  ∀ (T : LaneType) (vd vs1 : VIndex) (k : BitVec 6) (s : State),
    k.toNat < T.width → s.written (.v vs1) = true →
    ∃ t, exec (.shri T vd vs1 k) s = .next t ∧ CompletesIn s t vd ∧
      ∀ i < laneCount T s.vlen, lane T (t.vreg vd) i =
        BitVec.ofInt T.width (laneValue T (lane T (s.vreg vs1) i) / 2 ^ k.toNat)

/-- SHLU with a count in range completes, and every lane is shifted left by the whole 64-bit count
(41_uniform_shift.md R92). -/
def Obligations.ShluResult : Prop :=
  ∀ (T : LaneType) (vd vs1 : VIndex) (rs : XIndex) (s : State),
    s.written (.v vs1) = true → s.written (.x rs) = true → (s.xreg rs).toNat < T.width →
    ∃ t, exec (.shlu T vd vs1 rs) s = .next t ∧ CompletesIn s t vd ∧
      ∀ i < laneCount T s.vlen, lane T (t.vreg vd) i =
        BitVec.ofNat T.width ((lane T (s.vreg vs1) i).toNat * 2 ^ (s.xreg rs).toNat)

/-- SHRU with a count in range completes, and every lane is shifted right by the whole 64-bit count
(41_uniform_shift.md R93). -/
def Obligations.ShruResult : Prop :=
  ∀ (T : LaneType) (vd vs1 : VIndex) (rs : XIndex) (s : State),
    s.written (.v vs1) = true → s.written (.x rs) = true → (s.xreg rs).toNat < T.width →
    ∃ t, exec (.shru T vd vs1 rs) s = .next t ∧ CompletesIn s t vd ∧
      ∀ i < laneCount T s.vlen, lane T (t.vreg vd) i =
        BitVec.ofInt T.width (laneValue T (lane T (s.vreg vs1) i) / 2 ^ (s.xreg rs).toNat)

/-- SHLU and SHRU with a count of `w(T)` or more complete all the same: only `vd` is written, the counter moves on,
no exception is reported, and `vd` holds the free value of this execution, a new one at the next
(41_uniform_shift.md R91; the free value is log entry 3). -/
def Obligations.OutOfRangeUniformCountDraws : Prop :=
  ∀ (T : LaneType) (vd vs1 : VIndex) (rs : XIndex) (i : Instr) (s : State),
    i = .shlu T vd vs1 rs ∨ i = .shru T vd vs1 rs →
    s.written (.v vs1) = true → s.written (.x rs) = true → T.width ≤ (s.xreg rs).toNat →
    ∃ t, exec i s = .next t ∧ OnlyVdChanged s t vd ∧ t.pc = s.pc + 4 ∧ t.pending = none ∧
      t.draws = s.draws + 1 ∧
      (t.vreg vd).toNat =
        (Config.drawVlen s.vlen s.draws (encode i) (s.vreg vs1) (s.xreg rs)).toNat

/-- SHLV completes, and each lane is shifted left by its own count modulo the width
(42_variable_shift.md R96). -/
def Obligations.ShlvResult : Prop :=
  ∀ (T : LaneType) (vd vs1 vs2 : VIndex) (s : State),
    s.written (.v vs1) = true → s.written (.v vs2) = true →
    ∃ t, exec (.shlv T vd vs1 vs2) s = .next t ∧ CompletesIn s t vd ∧
      ∀ i < laneCount T s.vlen, lane T (t.vreg vd) i =
        BitVec.ofNat T.width
          ((lane T (s.vreg vs1) i).toNat * 2 ^ ((lane T (s.vreg vs2) i).toNat % T.width))

/-- SHRV completes, and each lane is shifted right by its own count modulo the width
(42_variable_shift.md R97). -/
def Obligations.ShrvResult : Prop :=
  ∀ (T : LaneType) (vd vs1 vs2 : VIndex) (s : State),
    s.written (.v vs1) = true → s.written (.v vs2) = true →
    ∃ t, exec (.shrv T vd vs1 vs2) s = .next t ∧ CompletesIn s t vd ∧
      ∀ i < laneCount T s.vlen, lane T (t.vreg vd) i =
        BitVec.ofInt T.width
          (laneValue T (lane T (s.vreg vs1) i) / 2 ^ ((lane T (s.vreg vs2) i).toNat % T.width))

/-- RSHRI completes; with `k = 0` every lane is unchanged, and otherwise it is the quotient
`floor(v(x) / 2^k)` plus the half bit `x[k-1]` (43_rounding_shift.md R107). -/
def Obligations.RshriResult : Prop :=
  ∀ (T : LaneType) (vd vs1 : VIndex) (k : BitVec 6) (s : State),
    k.toNat < T.width → s.written (.v vs1) = true →
    ∃ t, exec (.rshri T vd vs1 k) s = .next t ∧ CompletesIn s t vd ∧
      ∀ i < laneCount T s.vlen, lane T (t.vreg vd) i =
        if k.toNat = 0 then lane T (s.vreg vs1) i
        else BitVec.ofInt T.width (laneValue T (lane T (s.vreg vs1) i) / 2 ^ k.toNat +
          ((lane T (s.vreg vs1) i).getLsbD (k.toNat - 1)).toNat)

/-- RSHRV completes, and each lane is rounded as by RSHRI with its own count modulo the width
(43_rounding_shift.md R108). -/
def Obligations.RshrvResult : Prop :=
  ∀ (T : LaneType) (vd vs1 vs2 : VIndex) (s : State),
    s.written (.v vs1) = true → s.written (.v vs2) = true →
    ∃ t, exec (.rshrv T vd vs1 vs2) s = .next t ∧ CompletesIn s t vd ∧
      ∀ i < laneCount T s.vlen, ∀ k, k = (lane T (s.vreg vs2) i).toNat % T.width →
        lane T (t.vreg vd) i =
          if k = 0 then lane T (s.vreg vs1) i
          else BitVec.ofInt T.width (laneValue T (lane T (s.vreg vs1) i) / 2 ^ k +
            ((lane T (s.vreg vs1) i).getLsbD (k - 1)).toNat)

/-- SHLI.Z completes; active lanes are shifted left, inactive lanes are zero (44_masked_shift.md
R117). -/
def Obligations.ShliZResult : Prop :=
  ∀ (T : LaneType) (vd vs1 : VIndex) (k : BitVec 6) (vm : MIndex) (s : State),
    k.toNat < T.width → s.written (.v vs1) = true → s.written (.m vm) = true →
    ∃ t, exec (.shliZ T vd vs1 k vm) s = .next t ∧ CompletesIn s t vd ∧
      ∀ i < laneCount T s.vlen, lane T (t.vreg vd) i =
        if (s.mreg vm).getLsbD i then
          BitVec.ofNat T.width ((lane T (s.vreg vs1) i).toNat * 2 ^ k.toNat)
        else 0

/-- SHRI.Z completes; active lanes are shifted right with the fill of their type, inactive lanes are zero
(44_masked_shift.md R118). -/
def Obligations.ShriZResult : Prop :=
  ∀ (T : LaneType) (vd vs1 : VIndex) (k : BitVec 6) (vm : MIndex) (s : State),
    k.toNat < T.width → s.written (.v vs1) = true → s.written (.m vm) = true →
    ∃ t, exec (.shriZ T vd vs1 k vm) s = .next t ∧ CompletesIn s t vd ∧
      ∀ i < laneCount T s.vlen, lane T (t.vreg vd) i =
        if (s.mreg vm).getLsbD i then
          BitVec.ofInt T.width (laneValue T (lane T (s.vreg vs1) i) / 2 ^ k.toNat)
        else 0

/-- SHLI.M completes; active lanes are shifted left, inactive lanes keep the old `vd`
(44_masked_shift.md R119). -/
def Obligations.ShliMResult : Prop :=
  ∀ (T : LaneType) (vd vs1 : VIndex) (k : BitVec 6) (vm : MIndex) (s : State),
    k.toNat < T.width → s.written (.v vs1) = true → s.written (.m vm) = true →
    s.written (.v vd) = true →
    ∃ t, exec (.shliM T vd vs1 k vm) s = .next t ∧ CompletesIn s t vd ∧
      ∀ i < laneCount T s.vlen, lane T (t.vreg vd) i =
        if (s.mreg vm).getLsbD i then
          BitVec.ofNat T.width ((lane T (s.vreg vs1) i).toNat * 2 ^ k.toNat)
        else lane T (s.vreg vd) i

/-- SHRI.M completes; active lanes are shifted right with the fill of their type, inactive lanes keep the old
`vd` (44_masked_shift.md R120). -/
def Obligations.ShriMResult : Prop :=
  ∀ (T : LaneType) (vd vs1 : VIndex) (k : BitVec 6) (vm : MIndex) (s : State),
    k.toNat < T.width → s.written (.v vs1) = true → s.written (.m vm) = true →
    s.written (.v vd) = true →
    ∃ t, exec (.shriM T vd vs1 k vm) s = .next t ∧ CompletesIn s t vd ∧
      ∀ i < laneCount T s.vlen, lane T (t.vreg vd) i =
        if (s.mreg vm).getLsbD i then
          BitVec.ofInt T.width (laneValue T (lane T (s.vreg vs1) i) / 2 ^ k.toNat)
        else lane T (s.vreg vd) i

/-- SHLV.M completes; active lanes are shifted left by their own count modulo the width, inactive lanes keep the
old `vd` (44_masked_shift.md R121). -/
def Obligations.ShlvMResult : Prop :=
  ∀ (T : LaneType) (vd vs1 vs2 : VIndex) (vm : MIndex) (s : State),
    s.written (.v vs1) = true → s.written (.v vs2) = true → s.written (.m vm) = true →
    s.written (.v vd) = true →
    ∃ t, exec (.shlvM T vd vs1 vs2 vm) s = .next t ∧ CompletesIn s t vd ∧
      ∀ i < laneCount T s.vlen, lane T (t.vreg vd) i =
        if (s.mreg vm).getLsbD i then
          BitVec.ofNat T.width
            ((lane T (s.vreg vs1) i).toNat * 2 ^ ((lane T (s.vreg vs2) i).toNat % T.width))
        else lane T (s.vreg vd) i

/-- SHRV.M completes; active lanes are shifted right by their own count modulo the width, inactive lanes keep the
old `vd` (44_masked_shift.md R122). -/
def Obligations.ShrvMResult : Prop :=
  ∀ (T : LaneType) (vd vs1 vs2 : VIndex) (vm : MIndex) (s : State),
    s.written (.v vs1) = true → s.written (.v vs2) = true → s.written (.m vm) = true →
    s.written (.v vd) = true →
    ∃ t, exec (.shrvM T vd vs1 vs2 vm) s = .next t ∧ CompletesIn s t vd ∧
      ∀ i < laneCount T s.vlen, lane T (t.vreg vd) i =
        if (s.mreg vm).getLsbD i then
          BitVec.ofInt T.width
            (laneValue T (lane T (s.vreg vs1) i) / 2 ^ ((lane T (s.vreg vs2) i).toNat % T.width))
        else lane T (s.vreg vd) i

/-- MSHIFT completes, and bit `b` of output byte `j` of group `g` is bit `(b + n) mod 64` of group `g` of the
data, `n` being index byte `8g + j` (45_multishift.md R131, R132). -/
def Obligations.MshiftResult : Prop :=
  ∀ (vd vs1 vs2 : VIndex) (s : State),
    s.written (.v vs1) = true → s.written (.v vs2) = true →
    ∃ t, exec (.mshift vd vs1 vs2) s = .next t ∧ CompletesIn s t vd ∧
      ∀ g < s.vgroups, ∀ j < 8, ∀ b < 8,
        (byte (t.vreg vd) (8 * g + j)).getLsbD b =
          (rotationGroup (s.vreg vs1) g).getLsbD
            ((b + (byte (s.vreg vs2) (8 * g + j)).toNat) % 64)

/-! ### The lane primitives and the laws the rules give -/

/-- `SHL_w`: bit `b` of the result is bit `b - k` of the lane, and 0 below `k`; the value is
`u(x) * 2^k` modulo `2^w`; a shift by 0 is the identity (40_constant_shift.md R80). -/
def Obligations.ShiftLeftLaneRule : Prop :=
  ∀ (T : LaneType) (x : BitVec T.width) (k : Nat), k < T.width →
    (shiftLeft T x k).toNat = x.toNat * 2 ^ k % 2 ^ T.width ∧
    (∀ b < T.width, (shiftLeft T x k).getLsbD b = (decide (k ≤ b) && x.getLsbD (b - k))) ∧
    shiftLeft T x 0 = x

/-- `SHR_T`: the floor of the unsigned value for an unsigned type and of the signed value for a signed one; bit `b`
of the result is bit `b + k` of the lane, and the vacated high bits are 0 for an unsigned type and copies of the top
bit for a signed one; a shift by 0 is the identity (40_constant_shift.md R81). -/
def Obligations.ShiftRightLaneRule : Prop :=
  ∀ (T : LaneType) (x : BitVec T.width) (k : Nat), k < T.width →
    (T.signed = false → (shiftRight T x k).toNat = x.toNat / 2 ^ k) ∧
    (T.signed = true → (shiftRight T x k).toInt = x.toInt / 2 ^ k) ∧
    (∀ b < T.width, (shiftRight T x k).getLsbD b =
      if b + k < T.width then x.getLsbD (b + k) else (T.signed && x.getLsbD (T.width - 1))) ∧
    shiftRight T x 0 = x

/-- Identity at `k = 0`; at `k = w - 1` an unsigned lane becomes its top bit and a signed lane all ones or all
zeros by its top bit (40_constant_shift.md R85). -/
def Obligations.ShiftIdentityAndExtremes : Prop :=
  ∀ (T : LaneType) (x : BitVec T.width),
    shiftLeft T x 0 = x ∧ shiftRight T x 0 = x ∧
    (T.signed = false → (shiftRight T x (T.width - 1)).toNat = (x.getLsbD (T.width - 1)).toNat) ∧
    (T.signed = true → shiftRight T x (T.width - 1) =
      if x.getLsbD (T.width - 1) then BitVec.allOnes T.width else 0)

/-- For an unsigned type, a left shift and then a right shift by the same amount keep the low `w - k` bits
(40_constant_shift.md R86). -/
def Obligations.LeftThenRightKeepsLowBits : Prop :=
  ∀ (T : LaneType) (x : BitVec T.width) (k : Nat), T.signed = false → k < T.width →
    shiftRight T (shiftLeft T x k) k = x &&& BitVec.ofNat T.width (2 ^ (T.width - k) - 1)

/-- Shifts compose additively, for both directions and both fill rules (40_constant_shift.md R87). -/
def Obligations.ShiftsComposeAdditively : Prop :=
  ∀ (T : LaneType) (x : BitVec T.width) (a b : Nat), a + b < T.width →
    shiftLeft T (shiftLeft T x a) b = shiftLeft T x (a + b) ∧
    shiftRight T (shiftRight T x a) b = shiftRight T x (a + b)

/-- Lane `i` of the result of SHLI or SHRI depends on lane `i` of the data and on `k` alone: two runs of the
command, in any states and with any registers and `VLEN`s, whose data agree in lane `i`, agree in lane `i` of the
result (40_constant_shift.md R88). -/
def Obligations.ConstantShiftLanesIndependent : Prop :=
  ∀ (op : LaneType → VIndex → VIndex → BitVec 6 → Instr) (T : LaneType) (vd vs1 vd' vs1' : VIndex)
    (k : BitVec 6) (s s' t t' : State) (i : Nat),
    op = .shli ∨ op = .shri → k.toNat < T.width →
    exec (op T vd vs1 k) s = .next t → exec (op T vd' vs1' k) s' = .next t' →
    i < laneCount T s.vlen → i < laneCount T s'.vlen →
    lane T (s.vreg vs1) i = lane T (s'.vreg vs1') i →
    lane T (t.vreg vd) i = lane T (t'.vreg vd') i

/-- The effective count is the low `log2(w)` bits of the count lane, that is the count modulo the width, of the
unsigned value and of the signed value alike, and so less than the width (42_variable_shift.md R95). -/
def Obligations.EffectiveCountIsModWidth : Prop :=
  ∀ (T : LaneType) (s : BitVec T.width),
    laneAmount T s = (s.extractLsb' 0 T.log2Width).toNat ∧
    laneAmount T s = s.toNat % T.width ∧ (laneAmount T s : Int) = s.toInt % (T.width : Int) ∧
    laneAmount T s < T.width ∧ 2 ^ T.log2Width = T.width

/-- The staged shifter of 42_variable_shift.md R98 gives the shift by the effective count, for both
directions. -/
def Obligations.StagedShiftIsTheShift : Prop :=
  ∀ (T : LaneType) (x count : BitVec T.width),
    stagedShift T (shiftLeft T) x count T.log2Width = shiftLeft T x (laneAmount T count) ∧
    stagedShift T (shiftRight T) x count T.log2Width = shiftRight T x (laneAmount T count)

/-- SHLV and then SHRV by the same counts, on an unsigned type: both complete, and lane `i` is the data lane with
only its low `w - k` bits kept (42_variable_shift.md R99). -/
def Obligations.VariableLeftThenRightKeepsLowBits : Prop :=
  ∀ (T : LaneType) (vd vd' vs1 vs2 : VIndex) (s : State), T.signed = false → vd ≠ vs2 →
    s.written (.v vs1) = true → s.written (.v vs2) = true →
    ∃ t u, exec (.shlv T vd vs1 vs2) s = .next t ∧ exec (.shrv T vd' vd vs2) t = .next u ∧
      ∀ i < laneCount T s.vlen, ∀ k, k = (lane T (s.vreg vs2) i).toNat % T.width →
        lane T (u.vreg vd') i =
          lane T (s.vreg vs1) i &&& BitVec.ofNat T.width (2 ^ (T.width - k) - 1)

/-- Lane `i` of the result of SHLV or SHRV depends on lane `i` of the data and lane `i` of the counts alone
(42_variable_shift.md R100). -/
def Obligations.VariableShiftLanesIndependent : Prop :=
  ∀ (op : LaneType → VIndex → VIndex → VIndex → Instr) (T : LaneType)
    (vd vs1 vs2 vd' vs1' vs2' : VIndex) (s s' t t' : State) (i : Nat),
    op = .shlv ∨ op = .shrv →
    exec (op T vd vs1 vs2) s = .next t → exec (op T vd' vs1' vs2') s' = .next t' →
    i < laneCount T s.vlen → i < laneCount T s'.vlen →
    lane T (s.vreg vs1) i = lane T (s'.vreg vs1') i →
    lane T (s.vreg vs2) i = lane T (s'.vreg vs2') i →
    lane T (t.vreg vd) i = lane T (t'.vreg vd') i

/-- The rounding shift is the exact quotient rounded to the nearest integer, ties upwards, and always fits the
lane, so that it never wraps (43_rounding_shift.md R106). -/
def Obligations.RoundingClosedFormAndRange : Prop :=
  ∀ (T : LaneType) (x : BitVec T.width) (k : Nat), 1 ≤ k → k < T.width →
    roundRight T x k = BitVec.ofInt T.width ((laneValue T x + 2 ^ (k - 1)) / 2 ^ k) ∧
    laneValue T (roundRight T x k) = (laneValue T x + 2 ^ (k - 1)) / 2 ^ k ∧
    (T.signed = false → 0 ≤ laneValue T (roundRight T x k) ∧
      laneValue T (roundRight T x k) ≤ 2 ^ (T.width - k)) ∧
    (T.signed = true → -2 ^ (T.width - 1 - k) ≤ laneValue T (roundRight T x k) ∧
      laneValue T (roundRight T x k) ≤ 2 ^ (T.width - 1 - k))

/-- The wrapping-addition form equals the rounding shift outside the overflow band and differs from it inside; the band
is the top `2^(k-1)` values of the lane type (43_rounding_shift.md R109). -/
def Obligations.WrappingFormAgreesOutsideBand : Prop :=
  ∀ (T : LaneType) (x : BitVec T.width) (k : Nat), 1 ≤ k → k < T.width →
    (wrappingRound T x k = roundRight T x k ↔ laneValue T x + 2 ^ (k - 1) ≤ laneMax T) ∧
    (laneMax T < laneValue T x + 2 ^ (k - 1) ↔
      if T.signed then (2 : Int) ^ (T.width - 1) - 2 ^ (k - 1) ≤ x.toInt
      else 2 ^ T.width - 2 ^ (k - 1) ≤ x.toNat)

/-- The rounding shift exceeds the truncating one by the half bit: by 1 exactly when `k >= 1` and bit `k - 1` of the
lane is 1, and otherwise by 0 (43_rounding_shift.md R111). -/
def Obligations.RoundingMinusTruncation : Prop :=
  ∀ (T : LaneType) (x : BitVec T.width) (k : Nat), k < T.width →
    laneValue T (roundRight T x k) - laneValue T (shiftRight T x k) =
      if 1 ≤ k ∧ x.getLsbD (k - 1) = true then 1 else 0

/-- Every predicated command is the gate applied to its unpredicated command: active lanes from the unpredicated
result, inactive lanes zero for the zeroing forms and the old `vd` for the merging forms (44_masked_shift.md
R116). -/
def Obligations.PredicatedIsGateOfUnpredicated : Prop :=
  ∀ (T : LaneType) (vd vs1 vs2 : VIndex) (k : BitVec 6) (vm : MIndex) (s t u : State)
    (plain predicated : Instr) (base : Nat → BitVec T.width),
    (plain = .shli T vd vs1 k ∧ predicated = .shliZ T vd vs1 k vm ∧ base = fun _ => 0) ∨
    (plain = .shri T vd vs1 k ∧ predicated = .shriZ T vd vs1 k vm ∧ base = fun _ => 0) ∨
    (plain = .shli T vd vs1 k ∧ predicated = .shliM T vd vs1 k vm ∧ base = lane T (s.vreg vd)) ∨
    (plain = .shri T vd vs1 k ∧ predicated = .shriM T vd vs1 k vm ∧ base = lane T (s.vreg vd)) ∨
    (plain = .shlv T vd vs1 vs2 ∧ predicated = .shlvM T vd vs1 vs2 vm ∧
      base = lane T (s.vreg vd)) ∨
    (plain = .shrv T vd vs1 vs2 ∧ predicated = .shrvM T vd vs1 vs2 vm ∧
      base = lane T (s.vreg vd)) →
    plain.wf = true → exec plain s = .next t → exec predicated s = .next u →
    ∀ i < laneCount T s.vlen,
      lane T (u.vreg vd) i = if (s.mreg vm).getLsbD i then lane T (t.vreg vd) i else base i

/-- With every lane active each predicated command does what its unpredicated command does; and with any mask a
zeroing command is the gate over the unpredicated result with zero (44_masked_shift.md R123). -/
def Obligations.AllActiveMaskIsNoMask : Prop :=
  ∀ (T : LaneType) (vd vs1 vs2 : VIndex) (k : BitVec 6) (vm : MIndex) (s : State),
    k.toNat < T.width → s.written (.v vs1) = true → s.written (.v vs2) = true →
    s.written (.m vm) = true → s.written (.v vd) = true →
    ((∀ i < laneCount T s.vlen, (s.mreg vm).getLsbD i = true) →
      exec (.shliZ T vd vs1 k vm) s = exec (.shli T vd vs1 k) s ∧
      exec (.shriZ T vd vs1 k vm) s = exec (.shri T vd vs1 k) s ∧
      exec (.shliM T vd vs1 k vm) s = exec (.shli T vd vs1 k) s ∧
      exec (.shriM T vd vs1 k vm) s = exec (.shri T vd vs1 k) s ∧
      exec (.shlvM T vd vs1 vs2 vm) s = exec (.shlv T vd vs1 vs2) s ∧
      exec (.shrvM T vd vs1 vs2 vm) s = exec (.shrv T vd vs1 vs2) s) ∧
    (∃ t u, exec (.shli T vd vs1 k) s = .next t ∧ exec (.shliZ T vd vs1 k vm) s = .next u ∧
      ∀ i < laneCount T s.vlen,
        lane T (u.vreg vd) i = if (s.mreg vm).getLsbD i then lane T (t.vreg vd) i else 0) ∧
    (∃ t u, exec (.shri T vd vs1 k) s = .next t ∧ exec (.shriZ T vd vs1 k vm) s = .next u ∧
      ∀ i < laneCount T s.vlen,
        lane T (u.vreg vd) i = if (s.mreg vm).getLsbD i then lane T (t.vreg vd) i else 0)

/-- The value of an inactive lane has no effect beyond the fallback: two runs of a predicated command whose masks
agree in lane `i`, whose data and counts agree in lane `i` where it is active and whose merge bases agree in lane `i`
where it is not, agree in lane `i` of the result (44_masked_shift.md R124; 10_state.md R24 for the mask bits above the
lanes). -/
def Obligations.InactiveLanesHaveNoEffect : Prop :=
  ∀ (T : LaneType) (vd vs1 vs2 : VIndex) (k : BitVec 6) (vm : MIndex) (c : Instr) (s s' t t' : State)
    (i : Nat),
    c = .shliZ T vd vs1 k vm ∨ c = .shriZ T vd vs1 k vm ∨ c = .shliM T vd vs1 k vm ∨
      c = .shriM T vd vs1 k vm ∨ c = .shlvM T vd vs1 vs2 vm ∨ c = .shrvM T vd vs1 vs2 vm →
    c.wf = true → exec c s = .next t → exec c s' = .next t' →
    i < laneCount T s.vlen → i < laneCount T s'.vlen →
    (s.mreg vm).getLsbD i = (s'.mreg vm).getLsbD i →
    ((s.mreg vm).getLsbD i = true → lane T (s.vreg vs1) i = lane T (s'.vreg vs1) i) →
    ((s.mreg vm).getLsbD i = true → lane T (s.vreg vs2) i = lane T (s'.vreg vs2) i) →
    (isMerging c = true → (s.mreg vm).getLsbD i = false →
      lane T (s.vreg vd) i = lane T (s'.vreg vd) i) →
    lane T (t.vreg vd) i = lane T (t'.vreg vd) i

/-- The bytes of an output group of MSHIFT come from the same group of the data alone (45_multishift.md
R133). -/
def Obligations.GroupsNeverCross : Prop :=
  ∀ (vd vs1 vs2 vd' vs1' vs2' : VIndex) (s s' t t' : State) (g : Nat),
    exec (.mshift vd vs1 vs2) s = .next t → exec (.mshift vd' vs1' vs2') s' = .next t' →
    g < s.vgroups → g < s'.vgroups →
    rotationGroup (s.vreg vs1) g = rotationGroup (s'.vreg vs1') g →
    rotationGroup (s.vreg vs2) g = rotationGroup (s'.vreg vs2') g →
    rotationGroup (t.vreg vd) g = rotationGroup (t'.vreg vd') g

/-- An index byte of MSHIFT extracts the 8 bits of its group from the index on; indices that are multiples of 8 permute
the bytes of a group; the indices 0, 8, …, 56 reproduce the data, and 56, 48, …, 0 reverse the bytes of every group
(45_multishift.md R134). -/
def Obligations.ByteIndicesPermuteGroups : Prop :=
  ∀ (vd vs1 vs2 : VIndex) (s t : State), exec (.mshift vd vs1 vs2) s = .next t →
    (∀ g < s.vgroups, ∀ j < 8, ∀ b < 8, (byte (t.vreg vd) (8 * g + j)).getLsbD b =
      (rotationGroup (s.vreg vs1) g).getLsbD
        ((b + (byte (s.vreg vs2) (8 * g + j)).toNat) % 64)) ∧
    (∀ g < s.vgroups, ∀ j < 8, ∀ p, (byte (s.vreg vs2) (8 * g + j)).toNat = 8 * p →
      byte (t.vreg vd) (8 * g + j) = byte (s.vreg vs1) (8 * g + p % 8)) ∧
    ((∀ g < s.vgroups, ∀ j < 8, (byte (s.vreg vs2) (8 * g + j)).toNat = 8 * j) →
      (t.vreg vd).toNat = (s.vreg vs1).toNat) ∧
    ((∀ g < s.vgroups, ∀ j < 8, (byte (s.vreg vs2) (8 * g + j)).toNat = 8 * (7 - j)) →
      ∀ g < s.vgroups, ∀ j < 8,
        byte (t.vreg vd) (8 * g + j) = byte (s.vreg vs1) (8 * g + (7 - j)))

/-- Only the low six bits of an index byte matter: an index acts as its value modulo 64 (45_multishift.md
R135). -/
def Obligations.OnlyLowIndexBitsMatter : Prop :=
  ∀ (vd vs1 vs2 vs2' : VIndex) (s t t' : State),
    exec (.mshift vd vs1 vs2) s = .next t → exec (.mshift vd vs1 vs2') s = .next t' →
    (∀ p < 8 * s.vgroups,
      (byte (s.vreg vs2) p).toNat % 64 = (byte (s.vreg vs2') p).toNat % 64) →
    (t.vreg vd).toNat = (t'.vreg vd).toNat

/-- A left shift by 0 copies the register whole, whatever the lane type: `vmov` (30_encoding.md R65,
20_memory.md R42). -/
def Obligations.ShiftByZeroCopies : Prop :=
  ∀ (T : LaneType) (vd vs : VIndex) (s : State), s.written (.v vs) = true →
    ∃ t, exec (.shli T vd vs 0) s = .next t ∧ CompletesIn s t vd ∧
      (t.vreg vd).toNat = (s.vreg vs).toNat

/-- Where lanes, bytes and rotation groups lie in a register: byte `b` is bits `[8b+7 : 8b]`, lane `i` of width `w` is the
bytes from `(w/8)*i` on, least significant first, and byte `j` of a group is register byte `8g + j`
(20_memory.md R41). -/
def Obligations.LanesAreLittleEndianBytes : Prop :=
  ∀ (n : Nat) (v : BitVec n) (T : LaneType),
    (∀ b, ∀ k < 8, (byte v b).getLsbD k = v.getLsbD (8 * b + k)) ∧
    (∀ i, ∀ k < T.width, (lane T v i).getLsbD k = v.getLsbD (T.width * i + k)) ∧
    (∀ i, ∀ j < T.width / 8, byte (lane T v i) j = byte v (T.width / 8 * i + j)) ∧
    (∀ g, ∀ j < 8, byte (rotationGroup v g) j = byte v (8 * g + j))
end

