-- ==== Sys2Proof/Laws/Decode.lean ====
section
/-!
SUPPORT. The fields of an assembled command word, and how the masks of the opcode map see one.
-/

namespace Sys2Proof

section
variable (kind src pm : BitVec 2) (vm : MIndex) (lt : BitVec 3) (op2 : BitVec 6) (vs1 vd : VIndex)

/-- Which field a bit of a command word belongs to (30_encoding.md R51). -/
theorem assemble_getLsbD (b : Nat) :
    (assemble kind src pm vm lt op2 vs1 vd).getLsbD b
      = if b < 4 then majorVS.getLsbD b
        else if b < 9 then vd.getLsbD (b - 4)
        else if b < 14 then vs1.getLsbD (b - 9)
        else if b < 20 then op2.getLsbD (b - 14)
        else if b < 23 then lt.getLsbD (b - 20)
        else if b < 26 then vm.getLsbD (b - 23)
        else if b < 28 then pm.getLsbD (b - 26)
        else if b < 30 then src.getLsbD (b - 28)
        else kind.getLsbD (b - 30) := by
  change (kind ++ src ++ pm ++ vm ++ lt ++ op2 ++ vs1 ++ vd ++ majorVS).getLsbD b = _
  have h9 : b - 4 < 5 ↔ b < 9 := by omega
  have h14 : b - 9 < 5 ↔ b < 14 := by omega
  have h20 : b - 14 < 6 ↔ b < 20 := by omega
  have h23 : b - 20 < 3 ↔ b < 23 := by omega
  have h26 : b - 23 < 3 ↔ b < 26 := by omega
  have h28 : b - 26 < 2 ↔ b < 28 := by omega
  have h30 : b - 28 < 2 ↔ b < 30 := by omega
  simp only [BitVec.getLsbD_append]
  simp only [Nat.sub_sub, Nat.reduceAdd, h9, h14, h20, h23, h26, h28, h30]

@[simp] theorem fieldKind_assemble : fieldKind (assemble kind src pm vm lt op2 vs1 vd) = kind := by
  apply BitVec.eq_of_getLsbD_eq
  intro b hb
  rw [fieldKind, BitVec.getLsbD_extractLsb', assemble_getLsbD]
  interval_cases b <;> simp

@[simp] theorem fieldSrc_assemble : fieldSrc (assemble kind src pm vm lt op2 vs1 vd) = src := by
  apply BitVec.eq_of_getLsbD_eq
  intro b hb
  rw [fieldSrc, BitVec.getLsbD_extractLsb', assemble_getLsbD]
  interval_cases b <;> simp

@[simp] theorem fieldPm_assemble : fieldPm (assemble kind src pm vm lt op2 vs1 vd) = pm := by
  apply BitVec.eq_of_getLsbD_eq
  intro b hb
  rw [fieldPm, BitVec.getLsbD_extractLsb', assemble_getLsbD]
  interval_cases b <;> simp

@[simp] theorem fieldVm_assemble : fieldVm (assemble kind src pm vm lt op2 vs1 vd) = vm := by
  apply BitVec.eq_of_getLsbD_eq
  intro b hb
  rw [fieldVm, BitVec.getLsbD_extractLsb', assemble_getLsbD]
  interval_cases b <;> simp

@[simp] theorem fieldLt_assemble : fieldLt (assemble kind src pm vm lt op2 vs1 vd) = lt := by
  apply BitVec.eq_of_getLsbD_eq
  intro b hb
  rw [fieldLt, BitVec.getLsbD_extractLsb', assemble_getLsbD]
  interval_cases b <;> simp

@[simp] theorem fieldOp2_assemble : fieldOp2 (assemble kind src pm vm lt op2 vs1 vd) = op2 := by
  apply BitVec.eq_of_getLsbD_eq
  intro b hb
  rw [fieldOp2, BitVec.getLsbD_extractLsb', assemble_getLsbD]
  interval_cases b <;> simp

@[simp] theorem fieldReg2_assemble :
    fieldReg2 (assemble kind src pm vm lt op2 vs1 vd) = op2.extractLsb' 0 5 := by
  apply BitVec.eq_of_getLsbD_eq
  intro b hb
  rw [fieldReg2, BitVec.getLsbD_extractLsb', assemble_getLsbD, BitVec.getLsbD_extractLsb']
  interval_cases b <;> simp

@[simp] theorem fieldVs1_assemble : fieldVs1 (assemble kind src pm vm lt op2 vs1 vd) = vs1 := by
  apply BitVec.eq_of_getLsbD_eq
  intro b hb
  rw [fieldVs1, BitVec.getLsbD_extractLsb', assemble_getLsbD]
  interval_cases b <;> simp

@[simp] theorem fieldVd_assemble : fieldVd (assemble kind src pm vm lt op2 vs1 vd) = vd := by
  apply BitVec.eq_of_getLsbD_eq
  intro b hb
  rw [fieldVd, BitVec.getLsbD_extractLsb', assemble_getLsbD]
  interval_cases b <;> simp

@[simp] theorem fieldMajor_assemble :
    fieldMajor (assemble kind src pm vm lt op2 vs1 vd) = majorVS := by
  apply BitVec.eq_of_getLsbD_eq
  intro b hb
  rw [fieldMajor, BitVec.getLsbD_extractLsb', assemble_getLsbD]
  interval_cases b <;> simp

/-! What each of the five masks of the opcode map leaves of a command word. -/

theorem assemble_and_unpredicatedImm :
    assemble kind src pm vm lt op2 vs1 vd &&& 0xFF80000F#32 = assemble kind src pm vm 0 0 0 0 := by
  apply BitVec.eq_of_getLsbD_eq
  intro b hb
  rw [BitVec.getLsbD_and, assemble_getLsbD, assemble_getLsbD]
  interval_cases b <;> simp [majorVS]

theorem assemble_and_predicatedImm :
    assemble kind src pm vm lt op2 vs1 vd &&& 0xFC00000F#32 = assemble kind src pm 0 0 0 0 0 := by
  apply BitVec.eq_of_getLsbD_eq
  intro b hb
  rw [BitVec.getLsbD_and, assemble_getLsbD, assemble_getLsbD]
  interval_cases b <;> simp [majorVS]

theorem assemble_and_unpredicatedReg :
    assemble kind src pm vm lt op2 vs1 vd &&& 0xFF88000F#32
      = assemble kind src pm vm 0 (op2 &&& 0b100000#6) 0 0 := by
  apply BitVec.eq_of_getLsbD_eq
  intro b hb
  rw [BitVec.getLsbD_and, assemble_getLsbD, assemble_getLsbD]
  interval_cases b <;> simp [majorVS]

theorem assemble_and_predicatedReg :
    assemble kind src pm vm lt op2 vs1 vd &&& 0xFC08000F#32
      = assemble kind src pm 0 0 (op2 &&& 0b100000#6) 0 0 := by
  apply BitVec.eq_of_getLsbD_eq
  intro b hb
  rw [BitVec.getLsbD_and, assemble_getLsbD, assemble_getLsbD]
  interval_cases b <;> simp [majorVS]

theorem assemble_and_mshift :
    assemble kind src pm vm lt op2 vs1 vd &&& 0xFFF8000F#32
      = assemble kind src pm vm lt (op2 &&& 0b100000#6) 0 0 := by
  apply BitVec.eq_of_getLsbD_eq
  intro b hb
  rw [BitVec.getLsbD_and, assemble_getLsbD, assemble_getLsbD]
  interval_cases b <;> simp [majorVS]

end

/-- A word of the right `major` field is the word assembled from its fields (30_encoding.md R51). -/
theorem assemble_fields {c : Command} (h : fieldMajor c = majorVS) :
    assemble (fieldKind c) (fieldSrc c) (fieldPm c) (fieldVm c) (fieldLt c) (fieldOp2 c) (fieldVs1 c)
      (fieldVd c) = c := by
  apply BitVec.eq_of_getLsbD_eq
  intro b hb
  rw [assemble_getLsbD, ← h]
  simp only [fieldMajor, fieldVd, fieldVs1, fieldOp2, fieldLt, fieldKind, fieldSrc, fieldPm, fieldVm,
    BitVec.getLsbD_extractLsb']
  interval_cases b <;> simp

/-- Two assembled words are equal exactly when their fields are. -/
theorem assemble_inj {kind src pm kind' src' pm' : BitVec 2} {vm vm' : MIndex} {lt lt' : BitVec 3}
    {op2 op2' : BitVec 6} {vs1 vs1' vd vd' : VIndex} :
    assemble kind src pm vm lt op2 vs1 vd = assemble kind' src' pm' vm' lt' op2' vs1' vd' ↔
      kind = kind' ∧ src = src' ∧ pm = pm' ∧ vm = vm' ∧ lt = lt' ∧ op2 = op2' ∧ vs1 = vs1' ∧
        vd = vd' := by
  constructor
  · intro h
    have hk := congrArg fieldKind h
    have hs := congrArg fieldSrc h
    have hp := congrArg fieldPm h
    have hm := congrArg fieldVm h
    have hl := congrArg fieldLt h
    have ho := congrArg fieldOp2 h
    have h1 := congrArg fieldVs1 h
    have hd := congrArg fieldVd h
    simp only [fieldKind_assemble, fieldSrc_assemble, fieldPm_assemble, fieldVm_assemble,
      fieldLt_assemble, fieldOp2_assemble, fieldVs1_assemble, fieldVd_assemble]
      at hk hs hp hm hl ho h1 hd
    exact ⟨hk, hs, hp, hm, hl, ho, h1, hd⟩
  · rintro ⟨rfl, rfl, rfl, rfl, rfl, rfl, rfl, rfl⟩
    rfl

@[simp] theorem laneTypeOf_code (T : LaneType) : laneTypeOf (laneTypeCode T) = T := by
  cases T <;> decide

@[simp] theorem laneTypeCode_of (lt : BitVec 3) : laneTypeCode (laneTypeOf lt) = lt := by
  revert lt; decide

@[simp] theorem reg_of_op2OfReg (r : BitVec 5) : (op2OfReg r).extractLsb' 0 5 = r := by
  revert r; decide

theorem op2OfReg_high (r : BitVec 5) : op2OfReg r &&& 0b100000#6 = 0 := by
  revert r; decide

theorem op2OfReg_low {o : BitVec 6} (h : o &&& 0b100000#6 = 0) :
    op2OfReg (o.extractLsb' 0 5) = o := by
  revert o; decide

/-! ### The decoder on the fields of a word -/

/-- The mnemonic a word of the right `major` field names, by its fields: the triple `(kind, src, pm)` and the checks
the masks hold (30_encoding.md R59). -/
def opOfFields (kind src pm : BitVec 2) (vm : MIndex) (lt : BitVec 3) (op2 : BitVec 6) :
    Option Mnemonic :=
  if kind = 0b00#2 ∧ src = 0b00#2 ∧ pm = 0b00#2 ∧ vm = 0 then some .shli
  else if kind = 0b00#2 ∧ src = 0b00#2 ∧ pm = 0b01#2 then some .shliZ
  else if kind = 0b00#2 ∧ src = 0b00#2 ∧ pm = 0b10#2 then some .shliM
  else if kind = 0b00#2 ∧ src = 0b01#2 ∧ pm = 0b00#2 ∧ vm = 0 ∧ op2 &&& 0b100000#6 = 0 then some .shlu
  else if kind = 0b00#2 ∧ src = 0b10#2 ∧ pm = 0b00#2 ∧ vm = 0 ∧ op2 &&& 0b100000#6 = 0 then some .shlv
  else if kind = 0b00#2 ∧ src = 0b10#2 ∧ pm = 0b10#2 ∧ op2 &&& 0b100000#6 = 0 then some .shlvM
  else if kind = 0b01#2 ∧ src = 0b00#2 ∧ pm = 0b00#2 ∧ vm = 0 then some .shri
  else if kind = 0b01#2 ∧ src = 0b00#2 ∧ pm = 0b01#2 then some .shriZ
  else if kind = 0b01#2 ∧ src = 0b00#2 ∧ pm = 0b10#2 then some .shriM
  else if kind = 0b01#2 ∧ src = 0b01#2 ∧ pm = 0b00#2 ∧ vm = 0 ∧ op2 &&& 0b100000#6 = 0 then some .shru
  else if kind = 0b01#2 ∧ src = 0b10#2 ∧ pm = 0b00#2 ∧ vm = 0 ∧ op2 &&& 0b100000#6 = 0 then some .shrv
  else if kind = 0b01#2 ∧ src = 0b10#2 ∧ pm = 0b10#2 ∧ op2 &&& 0b100000#6 = 0 then some .shrvM
  else if kind = 0b10#2 ∧ src = 0b00#2 ∧ pm = 0b00#2 ∧ vm = 0 then some .rshri
  else if kind = 0b10#2 ∧ src = 0b10#2 ∧ pm = 0b00#2 ∧ vm = 0 ∧ op2 &&& 0b100000#6 = 0 then some .rshrv
  else if kind = 0b11#2 ∧ src = 0b10#2 ∧ pm = 0b00#2 ∧ vm = 0 ∧ lt = 0b011#3 ∧ op2 &&& 0b100000#6 = 0 then some .mshift
  else none

/-- The patterns of the opcode map, by their fields. -/
theorem opcodeMap_fields : opcodeMap =
  [ ⟨.shli, assemble 0b00#2 0b00#2 0b00#2 0 0 0 0 0, 0xFF80000F#32⟩,
    ⟨.shliZ, assemble 0b00#2 0b00#2 0b01#2 0 0 0 0 0, 0xFC00000F#32⟩,
    ⟨.shliM, assemble 0b00#2 0b00#2 0b10#2 0 0 0 0 0, 0xFC00000F#32⟩,
    ⟨.shlu, assemble 0b00#2 0b01#2 0b00#2 0 0 0 0 0, 0xFF88000F#32⟩,
    ⟨.shlv, assemble 0b00#2 0b10#2 0b00#2 0 0 0 0 0, 0xFF88000F#32⟩,
    ⟨.shlvM, assemble 0b00#2 0b10#2 0b10#2 0 0 0 0 0, 0xFC08000F#32⟩,
    ⟨.shri, assemble 0b01#2 0b00#2 0b00#2 0 0 0 0 0, 0xFF80000F#32⟩,
    ⟨.shriZ, assemble 0b01#2 0b00#2 0b01#2 0 0 0 0 0, 0xFC00000F#32⟩,
    ⟨.shriM, assemble 0b01#2 0b00#2 0b10#2 0 0 0 0 0, 0xFC00000F#32⟩,
    ⟨.shru, assemble 0b01#2 0b01#2 0b00#2 0 0 0 0 0, 0xFF88000F#32⟩,
    ⟨.shrv, assemble 0b01#2 0b10#2 0b00#2 0 0 0 0 0, 0xFF88000F#32⟩,
    ⟨.shrvM, assemble 0b01#2 0b10#2 0b10#2 0 0 0 0 0, 0xFC08000F#32⟩,
    ⟨.rshri, assemble 0b10#2 0b00#2 0b00#2 0 0 0 0 0, 0xFF80000F#32⟩,
    ⟨.rshrv, assemble 0b10#2 0b10#2 0b00#2 0 0 0 0 0, 0xFF88000F#32⟩,
    ⟨.mshift, assemble 0b11#2 0b10#2 0b00#2 0 0b011#3 0 0 0, 0xFFF8000F#32⟩ ] := by
  decide

theorem accepts_unpredicatedImm (op : Mnemonic) (kind src pm kind' src' pm' : BitVec 2)
    (vm vm' : MIndex) (lt : BitVec 3) (op2 : BitVec 6) (vs1 vd : VIndex) :
    OpRow.accepts ⟨op, assemble kind' src' pm' vm' 0 0 0 0, 0xFF80000F#32⟩
        (assemble kind src pm vm lt op2 vs1 vd)
      = decide (kind = kind' ∧ src = src' ∧ pm = pm' ∧ vm = vm') := by
  rw [Bool.eq_iff_iff]
  simp [OpRow.accepts, assemble_and_unpredicatedImm, assemble_inj]

theorem accepts_predicatedImm (op : Mnemonic) (kind src pm kind' src' pm' : BitVec 2)
    (vm : MIndex) (lt : BitVec 3) (op2 : BitVec 6) (vs1 vd : VIndex) :
    OpRow.accepts ⟨op, assemble kind' src' pm' 0 0 0 0 0, 0xFC00000F#32⟩
        (assemble kind src pm vm lt op2 vs1 vd)
      = decide (kind = kind' ∧ src = src' ∧ pm = pm') := by
  rw [Bool.eq_iff_iff]
  simp [OpRow.accepts, assemble_and_predicatedImm, assemble_inj]

theorem accepts_unpredicatedReg (op : Mnemonic) (kind src pm kind' src' pm' : BitVec 2)
    (vm vm' : MIndex) (lt : BitVec 3) (op2 : BitVec 6) (vs1 vd : VIndex) :
    OpRow.accepts ⟨op, assemble kind' src' pm' vm' 0 0 0 0, 0xFF88000F#32⟩
        (assemble kind src pm vm lt op2 vs1 vd)
      = decide (kind = kind' ∧ src = src' ∧ pm = pm' ∧ vm = vm' ∧ op2 &&& 0b100000#6 = 0) := by
  rw [Bool.eq_iff_iff]
  simp [OpRow.accepts, assemble_and_unpredicatedReg, assemble_inj]

theorem accepts_predicatedReg (op : Mnemonic) (kind src pm kind' src' pm' : BitVec 2)
    (vm : MIndex) (lt : BitVec 3) (op2 : BitVec 6) (vs1 vd : VIndex) :
    OpRow.accepts ⟨op, assemble kind' src' pm' 0 0 0 0 0, 0xFC08000F#32⟩
        (assemble kind src pm vm lt op2 vs1 vd)
      = decide (kind = kind' ∧ src = src' ∧ pm = pm' ∧ op2 &&& 0b100000#6 = 0) := by
  rw [Bool.eq_iff_iff]
  simp [OpRow.accepts, assemble_and_predicatedReg, assemble_inj]

theorem accepts_mshift (op : Mnemonic) (kind src pm kind' src' pm' : BitVec 2)
    (vm vm' : MIndex) (lt lt' : BitVec 3) (op2 : BitVec 6) (vs1 vd : VIndex) :
    OpRow.accepts ⟨op, assemble kind' src' pm' vm' lt' 0 0 0, 0xFFF8000F#32⟩
        (assemble kind src pm vm lt op2 vs1 vd)
      = decide (kind = kind' ∧ src = src' ∧ pm = pm' ∧ vm = vm' ∧ lt = lt' ∧
          op2 &&& 0b100000#6 = 0) := by
  rw [Bool.eq_iff_iff]
  simp [OpRow.accepts, assemble_and_mshift, assemble_inj]

theorem find_map_op_nil (p : OpRow → Bool) : (([] : List OpRow).find? p).map OpRow.op = none := rfl

theorem find_map_op_cons (p : OpRow → Bool) (r : OpRow) (rs : List OpRow) :
    ((r :: rs).find? p).map OpRow.op
      = if p r = true then some r.op else (rs.find? p).map OpRow.op := by
  rw [List.find?_cons]
  cases p r <;> rfl

/-- The row of the opcode map that an assembled word matches has the mnemonic its fields name. -/
theorem find_assemble (kind src pm : BitVec 2) (vm : MIndex) (lt : BitVec 3) (op2 : BitVec 6)
    (vs1 vd : VIndex) :
    (opcodeMap.find? fun r => r.accepts (assemble kind src pm vm lt op2 vs1 vd)).map OpRow.op
      = opOfFields kind src pm vm lt op2 := by
  rw [opcodeMap_fields]
  simp only [find_map_op_cons, find_map_op_nil, accepts_unpredicatedImm, accepts_predicatedImm,
    accepts_unpredicatedReg, accepts_predicatedReg, accepts_mshift, decide_eq_true_eq]
  rfl

/-- The decoder on an assembled word, by its fields (30_encoding.md R63). -/
theorem decode_assemble (kind src pm : BitVec 2) (vm : MIndex) (lt : BitVec 3) (op2 : BitVec 6)
    (vs1 vd : VIndex) :
    decode (assemble kind src pm vm lt op2 vs1 vd) =
      match opOfFields kind src pm vm lt op2 with
      | none => .raises .illegalCommand
      | some op =>
        if src = 0b00#2 ∧ (laneTypeOf lt).width ≤ op2.toNat then .raises .immOutOfRange
        else .command (operandsOf op (assemble kind src pm vm lt op2 vs1 vd)) := by
  rw [← find_assemble kind src pm vm lt op2 vs1 vd]
  unfold decode
  rw [if_pos (fieldMajor_assemble ..), fieldSrc_assemble, fieldLt_assemble, fieldOp2_assemble]
  cases opcodeMap.find? fun r => r.accepts (assemble kind src pm vm lt op2 vs1 vd) <;> rfl

theorem ite_some_eq {α : Type} {P : Prop} [Decidable P] {a b : α} {e : Option α}
    (h : (if P then some a else e) = some b) : (P ∧ a = b) ∨ e = some b := by
  by_cases hp : P
  · rw [if_pos hp] at h; exact .inl ⟨hp, Option.some.inj h⟩
  · rw [if_neg hp] at h; exact .inr h

/-- The command whose operands are the fields of a word has that word, and is well formed unless the word's immediate is
out of range. -/
theorem encode_operandsOf {kind src pm : BitVec 2} {vm : MIndex} {lt : BitVec 3} {op2 : BitVec 6}
    {op : Mnemonic} (h : opOfFields kind src pm vm lt op2 = some op) (vs1 vd : VIndex) :
    encode (operandsOf op (assemble kind src pm vm lt op2 vs1 vd))
      = assemble kind src pm vm lt op2 vs1 vd ∧
    ((operandsOf op (assemble kind src pm vm lt op2 vs1 vd)).wf = true ↔
      ¬(src = 0b00#2 ∧ (laneTypeOf lt).width ≤ op2.toNat)) := by
  unfold opOfFields at h
  iterate 15
    obtain ⟨hp, rfl⟩ | h := ite_some_eq h
    · simp [operandsOf, encode, op2OfReg_low, Instr.wf, immInRange, hp]
  cases h

/-- A word with another `major` field is no command (30_encoding.md R52). -/
theorem decode_of_major_ne {c : Command} (h : fieldMajor c ≠ majorVS) :
    decode c = .raises .illegalCommand := if_neg h

end Sys2Proof
end

