-- ==== Sys2Proof/Laws/Lanes.lean ====
section
/-!
SUPPORT. Packing fields into a register and reading them back; a register value is determined by its lanes.
-/

namespace Sys2Proof.Machine

open Sys2Proof

theorem width_pos (T : LaneType) : 0 < T.width := by cases T <;> decide

theorem width_le_64 (T : LaneType) : T.width ≤ 64 := by cases T <;> decide

/-- The lanes of a register tile it: the width divides `VLEN` (00_scope.md R10). -/
theorem width_dvd_vlen (T : LaneType) (g : Nat) : T.width ∣ 64 * g :=
  Dvd.dvd.mul_right (by cases T <;> decide) g

theorem width_mul_laneCount_vlen (T : LaneType) (g : Nat) :
    T.width * laneCount T (64 * g) = 64 * g := Nat.mul_div_cancel' (width_dvd_vlen T g)

/-- Bit `b` of a packed value is bit `b mod w` of field `b / w`. -/
theorem packFields_getLsbD {w : Nat} (hw : 0 < w) (n : Nat) (f : Nat → BitVec w) (count b : Nat) :
    (packFields n f count).getLsbD b
      = (decide (b < n) && decide (b / w < count) && (f (b / w)).getLsbD (b % w)) := by
  induction count with
  | zero => simp [packFields]
  | succ c ih =>
    have hb : w * (b / w) + b % w = b := Nat.div_add_mod b w
    have hm : b % w < w := Nat.mod_lt b hw
    simp only [packFields, BitVec.getLsbD_or, BitVec.getLsbD_shiftLeft, BitVec.getLsbD_setWidth, ih]
    rcases Nat.lt_trichotomy (b / w) c with hc | hc | hc
    · have h1 : w * (b / w + 1) ≤ w * c := Nat.mul_le_mul_left w hc
      have h2 : b < w * c := by rw [Nat.mul_add] at h1; omega
      have h3 : b / w < c + 1 := by omega
      simp [h2, hc, h3]
    · subst hc
      have h2 : ¬ b < w * (b / w) := by omega
      have h3 : b - w * (b / w) = b % w := by omega
      by_cases hn : b < n
      · have h4 : b % w < n := by omega
        simp [h2, h3, hn, h4]
      · simp [hn]
    · have h1 : w * (c + 1) ≤ w * (b / w) := Nat.mul_le_mul_left w hc
      have h2 : ¬ b < w * c := by rw [Nat.mul_add] at h1; omega
      have h3 : w ≤ b - w * c := by rw [Nat.mul_add] at h1; omega
      have h4 : ¬ b / w < c + 1 := by omega
      have h5 : ¬ b / w < c := by omega
      simp [h2, h4, h5, BitVec.getLsbD_of_ge _ _ h3]

theorem slice_getLsbD (w : Nat) {n : Nat} (v : BitVec n) (i b : Nat) :
    (slice w v i).getLsbD b = (decide (b < w) && v.getLsbD (w * i + b)) := by
  simp [slice, BitVec.getLsbD_extractLsb']

/-- A field of a packed value is the field packed there. -/
theorem slice_packFields {w : Nat} (hw : 0 < w) {n : Nat} (f : Nat → BitVec w) {count i : Nat}
    (hi : i < count) (hn : w * count ≤ n) : slice w (packFields n f count) i = f i := by
  apply BitVec.eq_of_getLsbD_eq
  intro b hb
  have h1 : (w * i + b) / w = i := by
    rw [Nat.mul_add_div hw, Nat.div_eq_of_lt hb, Nat.add_zero]
  have h2 : (w * i + b) % w = b := by
    rw [Nat.mul_add_mod, Nat.mod_eq_of_lt hb]
  have h3 : w * (i + 1) ≤ w * count := Nat.mul_le_mul_left w hi
  have h4 : w * i + b < n := by rw [Nat.mul_add] at h3; omega
  rw [slice_getLsbD, packFields_getLsbD hw, h1, h2]
  simp [hb, hi, h4]

/-- Lane `i` of `make_T(f)` is `f i` (00_scope.md R14). -/
theorem lane_makeLanes (T : LaneType) {n : Nat} (f : Nat → BitVec T.width) {i : Nat}
    (hi : i < laneCount T n) : lane T (makeLanes T n f) i = f i :=
  slice_packFields (width_pos T) f hi (Nat.mul_div_le n T.width)

/-- Byte `b` of a value made of bytes. -/
theorem byte_makeBytes {n : Nat} (f : Nat → BitVec 8) {b : Nat} (hb : b < n / 8) :
    byte (makeBytes n f) b = f b :=
  slice_packFields (by decide) f hb (Nat.mul_div_le n 8)

/-- Two values of fields that tile them are equal if all their fields are. -/
theorem eq_of_slice_eq {w : Nat} (hw : 0 < w) {n count : Nat} (hn : n ≤ w * count) {a b : BitVec n}
    (h : ∀ i < count, slice w a i = slice w b i) : a = b := by
  apply BitVec.eq_of_getLsbD_eq
  intro j hj
  have h1 : j / w < count := Nat.div_lt_of_lt_mul (by omega)
  have h2 := congrArg (fun x => x.getLsbD (j % w)) (h _ h1)
  simp only [slice_getLsbD, Nat.div_add_mod, Nat.mod_lt j hw, decide_true, Bool.true_and] at h2
  exact h2

/-- A register value is determined by its lanes of any one type (10_state.md R22). -/
theorem eq_of_lane_eq (T : LaneType) {g : Nat} {a b : BitVec (64 * g)}
    (h : ∀ i < laneCount T (64 * g), lane T a i = lane T b i) : a = b :=
  eq_of_slice_eq (width_pos T) (Nat.le_of_eq (width_mul_laneCount_vlen T g).symm) h

/-- A register value is determined by its bytes (20_memory.md R41). -/
theorem eq_of_byte_eq {g : Nat} {a b : BitVec (64 * g)} (h : ∀ p < 8 * g, byte a p = byte b p) :
    a = b :=
  eq_of_slice_eq (w := 8) (by decide) (count := 8 * g) (by omega) h

/-! ### The lanes of each form's result -/

theorem lane_mapLanes (T : LaneType) {n : Nat} (op : BitVec T.width → Nat → BitVec T.width)
    (a : BitVec n) (k : Nat) {i : Nat} (hi : i < laneCount T n) :
    lane T (mapLanes T op a k) i = op (lane T a i) k := lane_makeLanes T _ hi

theorem lane_zipLanes (T : LaneType) {n : Nat} (op : BitVec T.width → Nat → BitVec T.width)
    (a counts : BitVec n) {i : Nat} (hi : i < laneCount T n) :
    lane T (zipLanes T op a counts) i = op (lane T a i) (laneAmount T (lane T counts i)) :=
  lane_makeLanes T _ hi

theorem lane_selectLanes (T : LaneType) {m n : Nat} (mask : BitVec m) (a b : BitVec n) {i : Nat}
    (hi : i < laneCount T n) :
    lane T (selectLanes T mask a b) i = if active mask i then lane T a i else lane T b i :=
  lane_makeLanes T _ hi

theorem byte_rotateExtract {n : Nat} (a idx : BitVec n) {p : Nat} (hp : p < n / 8) :
    byte (rotateExtract a idx) p
      = (rotr64 (rotationGroup a (p / 8)) (byte idx p).toNat).extractLsb' 0 8 :=
  byte_makeBytes _ hp

@[simp] theorem lane_zero (T : LaneType) {n : Nat} (i : Nat) : lane T (0 : BitVec n) i = 0 := by
  apply BitVec.eq_of_getLsbD_eq
  intro b _
  rw [lane, slice_getLsbD]
  simp

/-! ### Amounts and values -/

/-- The effective count is the count modulo the width (42_variable_shift.md R95). -/
theorem laneAmount_eq_mod (T : LaneType) (s : BitVec T.width) : laneAmount T s = s.toNat % T.width := by
  have h (w k : Nat) (x : BitVec w) : (x.extractLsb' 0 k).toNat = x.toNat % 2 ^ k := by simp
  rw [laneAmount, h]
  cases T <;> rfl

theorem laneAmount_lt (T : LaneType) (s : BitVec T.width) : laneAmount T s < T.width := by
  rw [laneAmount_eq_mod]; exact Nat.mod_lt _ (width_pos T)

theorem laneValue_unsigned {T : LaneType} (h : T.signed = false) (x : BitVec T.width) :
    laneValue T x = (x.toNat : Int) := by simp [laneValue, h]

theorem laneValue_signed {T : LaneType} (h : T.signed = true) (x : BitVec T.width) :
    laneValue T x = x.toInt := by simp [laneValue, h]

/-- Bit `b` of a 64-bit rotation (45_multishift.md R131). -/
theorem rotr64_getLsbD (g : BitVec 64) (n b : Nat) (hb : b < 64) :
    (rotr64 g n).getLsbD b = g.getLsbD ((b + n % 64) % 64) := by
  have hr : n % 64 < 64 := Nat.mod_lt _ (by decide)
  simp only [rotr64, BitVec.getLsbD_or, BitVec.getLsbD_ushiftRight, BitVec.getLsbD_shiftLeft]
  by_cases h : b + n % 64 < 64
  · rw [Nat.mod_eq_of_lt h, Nat.add_comm (n % 64) b]
    have h2 : b < 64 - n % 64 := by omega
    simp [h2]
  · have h1 : (b + n % 64) % 64 = b - (64 - n % 64) := by omega
    have h2 : ¬ b < 64 - n % 64 := by omega
    have h3 : 64 ≤ n % 64 + b := by omega
    simp [h1, h2, hb, BitVec.getLsbD_of_ge _ _ h3]

end Sys2Proof.Machine
end

