-- ==== Sys2Proof/Laws/State.lean ====
section
/-!
SUPPORT. What each update of the state does to each field and to each view of a register.
-/

namespace Sys2Proof.Machine

open Sys2Proof

/-! ### Fields after each update -/

@[simp] theorem State.writeV_vgroups (s : State) (i : VIndex) (v) : (s.writeV i v).vgroups = s.vgroups := rfl
@[simp] theorem State.writeV_mr (s : State) (i : VIndex) (v) : (s.writeV i v).mr = s.mr := rfl
@[simp] theorem State.writeV_xr (s : State) (i : VIndex) (v) : (s.writeV i v).xr = s.xr := rfl
@[simp] theorem State.writeV_mrWritten (s : State) (i : VIndex) (v) :
    (s.writeV i v).mrWritten = s.mrWritten := rfl
@[simp] theorem State.writeV_xrWritten (s : State) (i : VIndex) (v) :
    (s.writeV i v).xrWritten = s.xrWritten := rfl
@[simp] theorem State.writeV_pc (s : State) (i : VIndex) (v) : (s.writeV i v).pc = s.pc := rfl
@[simp] theorem State.writeV_pending (s : State) (i : VIndex) (v) :
    (s.writeV i v).pending = s.pending := rfl
@[simp] theorem State.writeV_stream (s : State) (i : VIndex) (v) : (s.writeV i v).stream = s.stream := rfl
@[simp] theorem State.writeV_draws (s : State) (i : VIndex) (v) : (s.writeV i v).draws = s.draws := rfl

@[simp] theorem State.complete_vgroups (s : State) (vd : VIndex) (v) :
    (s.complete vd v).vgroups = s.vgroups := rfl
@[simp] theorem State.complete_mr (s : State) (vd : VIndex) (v) : (s.complete vd v).mr = s.mr := rfl
@[simp] theorem State.complete_xr (s : State) (vd : VIndex) (v) : (s.complete vd v).xr = s.xr := rfl
@[simp] theorem State.complete_pc (s : State) (vd : VIndex) (v) : (s.complete vd v).pc = s.pc + 4 := rfl
@[simp] theorem State.complete_pending (s : State) (vd : VIndex) (v) :
    (s.complete vd v).pending = none := rfl
@[simp] theorem State.complete_stream (s : State) (vd : VIndex) (v) :
    (s.complete vd v).stream = s.stream := rfl
@[simp] theorem State.complete_draws (s : State) (vd : VIndex) (v) :
    (s.complete vd v).draws = s.draws := rfl

@[simp] theorem State.completeDraw_vgroups (s : State) (vd : VIndex) (v) :
    (s.completeDraw vd v).vgroups = s.vgroups := rfl
@[simp] theorem State.completeDraw_pc (s : State) (vd : VIndex) (v) :
    (s.completeDraw vd v).pc = s.pc + 4 := rfl
@[simp] theorem State.completeDraw_pending (s : State) (vd : VIndex) (v) :
    (s.completeDraw vd v).pending = none := rfl
@[simp] theorem State.completeDraw_stream (s : State) (vd : VIndex) (v) :
    (s.completeDraw vd v).stream = s.stream := rfl
@[simp] theorem State.completeDraw_draws (s : State) (vd : VIndex) (v) :
    (s.completeDraw vd v).draws = s.draws + 1 := rfl

@[simp] theorem State.raise_vgroups (s : State) (e : Cause) (c : Command) :
    (s.raise e c).vgroups = s.vgroups := rfl
@[simp] theorem State.raise_vr (s : State) (e : Cause) (c : Command) : (s.raise e c).vr = s.vr := rfl
@[simp] theorem State.raise_mr (s : State) (e : Cause) (c : Command) : (s.raise e c).mr = s.mr := rfl
@[simp] theorem State.raise_xr (s : State) (e : Cause) (c : Command) : (s.raise e c).xr = s.xr := rfl
@[simp] theorem State.raise_pc (s : State) (e : Cause) (c : Command) : (s.raise e c).pc = s.pc := rfl
@[simp] theorem State.raise_pending (s : State) (e : Cause) (c : Command) :
    (s.raise e c).pending = some ⟨e, c⟩ := rfl
@[simp] theorem State.raise_stream (s : State) (e : Cause) (c : Command) :
    (s.raise e c).stream = s.stream := rfl
@[simp] theorem State.raise_draws (s : State) (e : Cause) (c : Command) :
    (s.raise e c).draws = s.draws := rfl
@[simp] theorem State.raise_written (s : State) (e : Cause) (c : Command) (r : RegName) :
    (s.raise e c).written r = s.written r := by cases r <;> rfl

/-! ### Registers after a command completes -/

theorem State.vreg_writeV_same (s : State) (i : VIndex) (v) : (s.writeV i v).vreg i = v := by
  simp [State.vreg, State.writeV]

theorem State.vreg_writeV_ne (s : State) {i r : VIndex} (v) (h : r ≠ i) :
    (s.writeV i v).vreg r = s.vreg r := by
  have h' : i.toNat ≠ r.toNat := fun e => h (BitVec.eq_of_toNat_eq e.symm)
  simp [State.vreg, State.writeV, Vector.getElem_set_ne, h']

theorem State.vreg_complete_same (s : State) (vd : VIndex) (v) : (s.complete vd v).vreg vd = v :=
  s.vreg_writeV_same vd v

theorem State.vreg_complete_ne (s : State) {vd r : VIndex} (v) (h : r ≠ vd) :
    (s.complete vd v).vreg r = s.vreg r := s.vreg_writeV_ne v h

theorem State.vreg_completeDraw_same (s : State) (vd : VIndex) (v) :
    (s.completeDraw vd v).vreg vd = v := s.vreg_writeV_same vd v

theorem State.vreg_completeDraw_ne (s : State) {vd r : VIndex} (v) (h : r ≠ vd) :
    (s.completeDraw vd v).vreg r = s.vreg r := s.vreg_writeV_ne v h

@[simp] theorem State.mreg_complete (s : State) (vd : VIndex) (v) (m : MIndex) :
    (s.complete vd v).mreg m = s.mreg m := rfl

@[simp] theorem State.xreg_complete (s : State) (vd : VIndex) (v) (x : XIndex) :
    (s.complete vd v).xreg x = s.xreg x := rfl

@[simp] theorem State.mreg_completeDraw (s : State) (vd : VIndex) (v) (m : MIndex) :
    (s.completeDraw vd v).mreg m = s.mreg m := rfl

@[simp] theorem State.xreg_completeDraw (s : State) (vd : VIndex) (v) (x : XIndex) :
    (s.completeDraw vd v).xreg x = s.xreg x := rfl

theorem State.written_writeV (s : State) (i : VIndex) (v) (r : RegName) :
    (s.writeV i v).written r = (s.written r || r == .v i) := by
  cases r with
  | v j =>
    by_cases h : i = j
    · subst h; simp [State.written, State.writeV]
    · have h' : i.toNat ≠ j.toNat := fun e => h (BitVec.eq_of_toNat_eq e)
      have h'' : ¬ j = i := fun e => h e.symm
      simp [State.written, State.writeV, Vector.getElem_set_ne, h', h'']
  | m j => simp [State.written, State.writeV]
  | x j => simp [State.written, State.writeV]

theorem State.written_complete (s : State) (vd : VIndex) (v) (r : RegName) :
    (s.complete vd v).written r = (s.written r || r == .v vd) := by
  rw [← s.written_writeV vd v r]; cases r <;> rfl

theorem State.written_completeDraw (s : State) (vd : VIndex) (v) (r : RegName) :
    (s.completeDraw vd v).written r = (s.written r || r == .v vd) := by
  rw [← s.written_writeV vd v r]; cases r <;> rfl

/-! ### A pending report plays no part in a command -/

@[simp] theorem State.complete_of_pending (s : State) (p : Option Report) (vd : VIndex) (v) :
    State.complete { s with pending := p } vd v = s.complete vd v := rfl

@[simp] theorem State.completeDraw_of_pending (s : State) (p : Option Report) (vd : VIndex) (v) :
    State.completeDraw { s with pending := p } vd v = s.completeDraw vd v := rfl

@[simp] theorem State.raise_of_pending (s : State) (p : Option Report) (e : Cause) (c : Command) :
    State.raise { s with pending := p } e c = s.raise e c := rfl

/-! ### What the enclosing core does -/

@[simp] theorem State.clearReport_pending (s : State) : s.clearReport.pending = none := rfl
@[simp] theorem State.clearReport_pc (s : State) : s.clearReport.pc = s.pc := rfl
@[simp] theorem State.clearReport_stream (s : State) : s.clearReport.stream = s.stream := rfl
@[simp] theorem State.placeStream_stream (s : State) (ws : List Command) :
    (s.placeStream ws).stream = ws := rfl
@[simp] theorem State.placeStream_pc (s : State) (ws : List Command) : (s.placeStream ws).pc = s.pc := rfl

theorem putWord_getElem? (c : Command) (n : Nat) (ws : List Command) :
    (putWord c n ws)[n]? = some c := by
  induction n generalizing ws with
  | zero => cases ws <;> simp [putWord]
  | succ n ih => cases ws <;> simp [putWord, ih]

end Sys2Proof.Machine
end

