-- ==== Sys2Proof/Laws/Forms.lean ====
section
/-!
SUPPORT. What each operand read, each form, each command and one issue of a word can answer.
-/

namespace Sys2Proof.Machine

open Sys2Proof

/-! ### Reading an operand -/

theorem withV_written {c : Instr} {s : State} {i : VIndex} (h : s.written (.v i) = true)
    (go : BitVec s.vlen → StepOutcome) : withV c s i go = go (s.vreg i) := by simp [withV, h]

theorem withM_written {c : Instr} {s : State} {i : MIndex} (h : s.written (.m i) = true)
    (go : BitVec (8 * s.vgroups) → StepOutcome) : withM c s i go = go (s.mreg i) := by simp [withM, h]

theorem withX_written {c : Instr} {s : State} {i : XIndex} (h : s.written (.x i) = true)
    (go : BitVec 64 → StepOutcome) : withX c s i go = go (s.xreg i) := by simp [withX, h]

theorem withV_unwritten {c : Instr} {s : State} {i : VIndex} (h : s.written (.v i) = false)
    (go : BitVec s.vlen → StepOutcome) : withV c s i go = .fault (.unwrittenRead c (.v i)) := by
  simp [withV, h]

theorem withM_unwritten {c : Instr} {s : State} {i : MIndex} (h : s.written (.m i) = false)
    (go : BitVec (8 * s.vgroups) → StepOutcome) :
    withM c s i go = .fault (.unwrittenRead c (.m i)) := by simp [withM, h]

theorem withX_unwritten {c : Instr} {s : State} {i : XIndex} (h : s.written (.x i) = false)
    (go : BitVec 64 → StepOutcome) : withX c s i go = .fault (.unwrittenRead c (.x i)) := by
  simp [withX, h]

theorem withImm_inRange {c : Instr} {s : State} {T : LaneType} {k : BitVec 6}
    (h : immInRange T k = true) (go : Nat → StepOutcome) : withImm c s T k go = go k.toNat := by
  simp [withImm, h]

theorem withImm_outOfRange {c : Instr} {s : State} {T : LaneType} {k : BitVec 6}
    (h : immInRange T k = false) (go : Nat → StepOutcome) :
    withImm c s T k go = .next (s.raise .immOutOfRange (encode c)) := by simp [withImm, h]

theorem immInRange_iff (T : LaneType) (k : BitVec 6) : immInRange T k = true ↔ k.toNat < T.width := by
  simp [immInRange]

/-! ### The forms, where the command completes -/

theorem constantForm_completes {c : Instr} {T : LaneType} {op : BitVec T.width → Nat → BitVec T.width}
    {vd vs1 : VIndex} {k : BitVec 6} {s : State} (hk : k.toNat < T.width)
    (h1 : s.written (.v vs1) = true) :
    constantForm c T op vd vs1 k s = .next (s.complete vd (mapLanes T op (s.vreg vs1) k.toNat)) := by
  simp [constantForm, withImm_inRange ((immInRange_iff T k).2 hk), withV_written h1]

theorem zeroingForm_completes {c : Instr} {T : LaneType} {op : BitVec T.width → Nat → BitVec T.width}
    {vd vs1 : VIndex} {k : BitVec 6} {vm : MIndex} {s : State} (hk : k.toNat < T.width)
    (h1 : s.written (.v vs1) = true) (hm : s.written (.m vm) = true) :
    zeroingForm c T op vd vs1 k vm s
      = .next (s.complete vd (selectLanes T (s.mreg vm) (mapLanes T op (s.vreg vs1) k.toNat) 0)) := by
  simp [zeroingForm, withImm_inRange ((immInRange_iff T k).2 hk), withV_written h1, withM_written hm]

theorem mergingForm_completes {c : Instr} {T : LaneType} {op : BitVec T.width → Nat → BitVec T.width}
    {vd vs1 : VIndex} {k : BitVec 6} {vm : MIndex} {s : State} (hk : k.toNat < T.width)
    (h1 : s.written (.v vs1) = true) (hm : s.written (.m vm) = true) (hd : s.written (.v vd) = true) :
    mergingForm c T op vd vs1 k vm s
      = .next (s.complete vd
          (selectLanes T (s.mreg vm) (mapLanes T op (s.vreg vs1) k.toNat) (s.vreg vd))) := by
  simp [mergingForm, withImm_inRange ((immInRange_iff T k).2 hk), withV_written h1, withM_written hm,
    withV_written hd]

theorem variableForm_completes {c : Instr} {T : LaneType} {op : BitVec T.width → Nat → BitVec T.width}
    {vd vs1 vs2 : VIndex} {s : State} (h1 : s.written (.v vs1) = true)
    (h2 : s.written (.v vs2) = true) :
    variableForm c T op vd vs1 vs2 s
      = .next (s.complete vd (zipLanes T op (s.vreg vs1) (s.vreg vs2))) := by
  simp [variableForm, withV_written h1, withV_written h2]

theorem variableMergingForm_completes {c : Instr} {T : LaneType}
    {op : BitVec T.width → Nat → BitVec T.width} {vd vs1 vs2 : VIndex} {vm : MIndex} {s : State}
    (h1 : s.written (.v vs1) = true) (h2 : s.written (.v vs2) = true)
    (hm : s.written (.m vm) = true) (hd : s.written (.v vd) = true) :
    variableMergingForm c T op vd vs1 vs2 vm s
      = .next (s.complete vd
          (selectLanes T (s.mreg vm) (zipLanes T op (s.vreg vs1) (s.vreg vs2)) (s.vreg vd))) := by
  simp [variableMergingForm, withV_written h1, withV_written h2, withM_written hm, withV_written hd]

theorem uniformForm_completes {c : Instr} {T : LaneType} {op : BitVec T.width → Nat → BitVec T.width}
    {vd vs1 : VIndex} {rs : XIndex} {s : State} (h1 : s.written (.v vs1) = true)
    (hx : s.written (.x rs) = true) (hc : (s.xreg rs).toNat < T.width) :
    uniformForm c T op vd vs1 rs s
      = .next (s.complete vd (mapLanes T op (s.vreg vs1) (s.xreg rs).toNat)) := by
  simp [uniformForm, withV_written h1, withX_written hx, hc]

theorem uniformForm_draws {c : Instr} {T : LaneType} {op : BitVec T.width → Nat → BitVec T.width}
    {vd vs1 : VIndex} {rs : XIndex} {s : State} (h1 : s.written (.v vs1) = true)
    (hx : s.written (.x rs) = true) (hc : T.width ≤ (s.xreg rs).toNat) :
    uniformForm c T op vd vs1 rs s
      = .next (s.completeDraw vd (s.draw c (s.vreg vs1) (s.xreg rs))) := by
  simp [uniformForm, withV_written h1, withX_written hx, Nat.not_lt.2 hc]

/-! ### What a command can answer -/

/-- A well-formed command whose sources are all written completes: it writes a value into `vd`, or, for an
out-of-range uniform count, a draw. -/
theorem exec_of_ready {i : Instr} {s : State} (hw : i.wf = true) (hr : Ready s i) :
    (∃ v, exec i s = .next (s.complete (destOf i) v)) ∨
    (∃ v, exec i s = .next (s.completeDraw (destOf i) v)) := by
  cases i with
  | shlu T vd vs1 rs =>
    simp only [Ready, sourcesOf, List.forall_mem_cons] at hr
    rcases Nat.lt_or_ge (s.xreg rs).toNat T.width with hc | hc
    · exact .inl ⟨_, uniformForm_completes hr.1 hr.2.1 hc⟩
    · exact .inr ⟨_, uniformForm_draws hr.1 hr.2.1 hc⟩
  | shru T vd vs1 rs =>
    simp only [Ready, sourcesOf, List.forall_mem_cons] at hr
    rcases Nat.lt_or_ge (s.xreg rs).toNat T.width with hc | hc
    · exact .inl ⟨_, uniformForm_completes hr.1 hr.2.1 hc⟩
    · exact .inr ⟨_, uniformForm_draws hr.1 hr.2.1 hc⟩
  | mshift vd vs1 vs2 =>
    simp only [Ready, sourcesOf, List.forall_mem_cons] at hr
    exact .inl ⟨_, by simp only [exec, execMshift, withV_written hr.1, withV_written hr.2.1]; rfl⟩
  | shlv | shrv | rshrv =>
    simp only [Ready, sourcesOf, List.forall_mem_cons] at hr
    exact .inl ⟨_, variableForm_completes hr.1 hr.2.1⟩
  | shlvM | shrvM =>
    simp only [Ready, sourcesOf, List.forall_mem_cons] at hr
    exact .inl ⟨_, variableMergingForm_completes hr.1 hr.2.1 hr.2.2.1 hr.2.2.2.1⟩
  | shli | shri | rshri =>
    simp only [Ready, sourcesOf, List.forall_mem_cons] at hr
    exact .inl ⟨_, constantForm_completes ((immInRange_iff _ _).1 hw) hr.1⟩
  | shliZ | shriZ =>
    simp only [Ready, sourcesOf, List.forall_mem_cons] at hr
    exact .inl ⟨_, zeroingForm_completes ((immInRange_iff _ _).1 hw) hr.1 hr.2.1⟩
  | shliM | shriM =>
    simp only [Ready, sourcesOf, List.forall_mem_cons] at hr
    exact .inl ⟨_, mergingForm_completes ((immInRange_iff _ _).1 hw) hr.1 hr.2.1 hr.2.2.1⟩

/-- An ill-formed command takes the exception `IMM_OUT_OF_RANGE` before it reads anything. -/
theorem exec_of_not_wf {i : Instr} (hw : i.wf = false) (s : State) :
    exec i s = .next (s.raise .immOutOfRange (encode i)) := by
  cases i with
  | shlu | shlv | shlvM | shru | shrv | shrvM | rshrv | mshift => simp [Instr.wf] at hw
  | shli | shri | rshri =>
    simp_all [Instr.wf, exec, execShli, execShri, execRshri, constantForm, withImm]
  | shliZ | shriZ => simp_all [Instr.wf, exec, execShliZ, execShriZ, zeroingForm, withImm]
  | shliM | shriM => simp_all [Instr.wf, exec, execShliM, execShriM, mergingForm, withImm]

/-- A well-formed command with an unwritten source faults, naming an unwritten source of its own. -/
theorem exec_of_not_ready {i : Instr} {s : State} (hw : i.wf = true) (hr : ¬ Ready s i) :
    ∃ r ∈ sourcesOf i, s.written r = false ∧ exec i s = .fault (.unwrittenRead i r) := by
  cases i with
  | shli T vd vs1 k | shri T vd vs1 k | rshri T vd vs1 k =>
    cases h1 : s.written (.v vs1) <;>
      simp_all [Ready, sourcesOf, Instr.wf, exec, execShli, execShri, execRshri, constantForm,
        withImm, withV]
  | shliZ T vd vs1 k vm | shriZ T vd vs1 k vm =>
    cases h1 : s.written (.v vs1) <;> cases h2 : s.written (.m vm) <;>
      simp_all [Ready, sourcesOf, Instr.wf, exec, execShliZ, execShriZ, zeroingForm, withImm, withV,
        withM]
  | shliM T vd vs1 k vm | shriM T vd vs1 k vm =>
    cases h1 : s.written (.v vs1) <;> cases h2 : s.written (.m vm) <;>
      cases h3 : s.written (.v vd) <;>
      simp_all [Ready, sourcesOf, Instr.wf, exec, execShliM, execShriM, mergingForm, withImm, withV,
        withM]
  | shlu T vd vs1 rs | shru T vd vs1 rs =>
    cases h1 : s.written (.v vs1) <;> cases h2 : s.written (.x rs) <;>
      simp_all [Ready, sourcesOf, exec, execShlu, execShru, uniformForm, withV, withX]
  | shlv T vd vs1 vs2 | shrv T vd vs1 vs2 | rshrv T vd vs1 vs2 | mshift vd vs1 vs2 =>
    cases h1 : s.written (.v vs1) <;> cases h2 : s.written (.v vs2) <;>
      simp_all [Ready, sourcesOf, exec, execShlv, execShrv, execRshrv, execMshift, variableForm,
        withV]
  | shlvM T vd vs1 vs2 vm | shrvM T vd vs1 vs2 vm =>
    cases h1 : s.written (.v vs1) <;> cases h2 : s.written (.v vs2) <;>
      cases h3 : s.written (.m vm) <;> cases h4 : s.written (.v vd) <;>
      simp_all [Ready, sourcesOf, exec, execShlvM, execShrvM, variableMergingForm, withV, withM]

/-- Everything a command can do where it answers a next state: it completes with a value, completes with a draw,
or takes the exception of an immediate out of range. -/
theorem exec_next {i : Instr} {s t : State} (h : exec i s = .next t) :
    (i.wf = true ∧ Ready s i ∧
      ((∃ v, t = s.complete (destOf i) v) ∨ (∃ v, t = s.completeDraw (destOf i) v))) ∨
    (i.wf = false ∧ t = s.raise .immOutOfRange (encode i)) := by
  cases hw : i.wf with
  | false =>
    rw [exec_of_not_wf hw] at h
    exact .inr ⟨rfl, (Host.Outcome.next.inj h).symm⟩
  | true =>
    by_cases hr : Ready s i
    · refine .inl ⟨rfl, hr, ?_⟩
      rcases exec_of_ready hw hr with ⟨v, hv⟩ | ⟨v, hv⟩ <;> rw [hv] at h
      · exact .inl ⟨v, (Host.Outcome.next.inj h).symm⟩
      · exact .inr ⟨v, (Host.Outcome.next.inj h).symm⟩
    · obtain ⟨r, -, -, hf⟩ := exec_of_not_ready hw hr
      rw [hf] at h
      cases h

/-- No command is refused. -/
theorem exec_ne_refused (i : Instr) (s : State) (r : Refusal) : exec i s ≠ .refused r := by
  intro h
  cases hw : i.wf with
  | false => rw [exec_of_not_wf hw] at h; cases h
  | true =>
    by_cases hr : Ready s i
    · rcases exec_of_ready hw hr with ⟨v, hv⟩ | ⟨v, hv⟩ <;> rw [hv] at h <;> cases h
    · obtain ⟨_, -, -, hf⟩ := exec_of_not_ready hw hr
      rw [hf] at h
      cases h

/-! ### The frame of a completing command -/

theorem onlyVdChanged_complete (s : State) (vd : VIndex) (v) : OnlyVdChanged s (s.complete vd v) vd :=
  ⟨rfl, fun _ h => congrArg BitVec.toNat (s.vreg_complete_ne v h), fun _ => rfl, fun _ => rfl,
    s.written_complete vd v, rfl⟩

theorem onlyVdChanged_completeDraw (s : State) (vd : VIndex) (v) :
    OnlyVdChanged s (s.completeDraw vd v) vd :=
  ⟨rfl, fun _ h => congrArg BitVec.toNat (s.vreg_completeDraw_ne v h), fun _ => rfl, fun _ => rfl,
    s.written_completeDraw vd v, rfl⟩

theorem completesIn_complete (s : State) (vd : VIndex) (v) : CompletesIn s (s.complete vd v) vd :=
  ⟨onlyVdChanged_complete s vd v, rfl, rfl, rfl⟩

/-- The lanes of the written register after a command completes. -/
theorem lane_vreg_complete (T : LaneType) (s : State) (vd : VIndex) (v : BitVec s.vlen) (i : Nat) :
    lane T ((s.complete vd v).vreg vd) i = lane T v i :=
  congrArg (fun x : BitVec s.vlen => lane T x i) (s.vreg_complete_same vd v)

/-- The bytes of the written register after a command completes. -/
theorem byte_vreg_complete (s : State) (vd : VIndex) (v : BitVec s.vlen) (p : Nat) :
    byte ((s.complete vd v).vreg vd) p = byte v p :=
  congrArg (fun x : BitVec s.vlen => byte x p) (s.vreg_complete_same vd v)

/-! ### One step -/

theorem wordAtPc_of_aligned {s : State} (h : s.pc.toNat % 4 = 0) :
    s.wordAtPc = s.stream[s.pc.toNat / 4]? := by simp [State.wordAtPc, h]

/-- Everything a step can do where it answers a next state. -/
theorem step_next {s t : State} (h : step s = .next t) :
    s.pending = none ∧ ∃ c, s.wordAtPc = some c ∧
      ((∃ i, decode c = .command i ∧ exec i s = .next t) ∨
       (∃ e, decode c = .raises e ∧ t = s.raise e c)) := by
  unfold step runCommand at h
  split at h
  · cases h
  · rename_i hp
    split at h
    · rename_i c hc
      refine ⟨by simpa using hp, c, hc, ?_⟩
      unfold issue at h
      split at h
      · rename_i i hi
        exact .inl ⟨i, hi, h⟩
      · rename_i e he
        exact .inr ⟨e, he, (Host.Outcome.next.inj h).symm⟩
    · cases h

end Sys2Proof.Machine
end

