-- ==== Sys2Proof/Laws/PerInstr.lean ====
section
/-!
SUPPORT. Facts about each command as it is written, one lemma for each constructor of `Instr`.
-/

namespace Sys2Proof.Laws.MatchesRow

open Sys2Proof

/-- The word of the command matches the row of the opcode map with its mnemonic (30_encoding.md R59). -/
def Statement (i : Instr) : Prop :=
  ∃ r ∈ opcodeMap, r.op = mnemonicOf i ∧ r.accepts (encode i) = true

theorem shli (T : LaneType) (vd vs1 : VIndex) (k : BitVec 6) : Statement (.shli T vd vs1 k) :=
  ⟨⟨.shli, 0x0000000B#32, 0xFF80000F#32⟩, by simp [opcodeMap], rfl,
    beq_iff_eq.2 ((assemble_and_unpredicatedImm ..).trans (by decide))⟩

theorem shliZ (T : LaneType) (vd vs1 : VIndex) (k : BitVec 6) (vm : MIndex) :
    Statement (.shliZ T vd vs1 k vm) :=
  ⟨⟨.shliZ, 0x0400000B#32, 0xFC00000F#32⟩, by simp [opcodeMap], rfl,
    beq_iff_eq.2 ((assemble_and_predicatedImm ..).trans (by decide))⟩

theorem shliM (T : LaneType) (vd vs1 : VIndex) (k : BitVec 6) (vm : MIndex) :
    Statement (.shliM T vd vs1 k vm) :=
  ⟨⟨.shliM, 0x0800000B#32, 0xFC00000F#32⟩, by simp [opcodeMap], rfl,
    beq_iff_eq.2 ((assemble_and_predicatedImm ..).trans (by decide))⟩

theorem shlu (T : LaneType) (vd vs1 : VIndex) (rs : XIndex) : Statement (.shlu T vd vs1 rs) :=
  ⟨⟨.shlu, 0x1000000B#32, 0xFF88000F#32⟩, by simp [opcodeMap], rfl,
    beq_iff_eq.2 ((assemble_and_unpredicatedReg ..).trans (by rw [op2OfReg_high]; decide))⟩

theorem shlv (T : LaneType) (vd vs1 vs2 : VIndex) : Statement (.shlv T vd vs1 vs2) :=
  ⟨⟨.shlv, 0x2000000B#32, 0xFF88000F#32⟩, by simp [opcodeMap], rfl,
    beq_iff_eq.2 ((assemble_and_unpredicatedReg ..).trans (by rw [op2OfReg_high]; decide))⟩

theorem shlvM (T : LaneType) (vd vs1 vs2 : VIndex) (vm : MIndex) :
    Statement (.shlvM T vd vs1 vs2 vm) :=
  ⟨⟨.shlvM, 0x2800000B#32, 0xFC08000F#32⟩, by simp [opcodeMap], rfl,
    beq_iff_eq.2 ((assemble_and_predicatedReg ..).trans (by rw [op2OfReg_high]; decide))⟩

theorem shri (T : LaneType) (vd vs1 : VIndex) (k : BitVec 6) : Statement (.shri T vd vs1 k) :=
  ⟨⟨.shri, 0x4000000B#32, 0xFF80000F#32⟩, by simp [opcodeMap], rfl,
    beq_iff_eq.2 ((assemble_and_unpredicatedImm ..).trans (by decide))⟩

theorem shriZ (T : LaneType) (vd vs1 : VIndex) (k : BitVec 6) (vm : MIndex) :
    Statement (.shriZ T vd vs1 k vm) :=
  ⟨⟨.shriZ, 0x4400000B#32, 0xFC00000F#32⟩, by simp [opcodeMap], rfl,
    beq_iff_eq.2 ((assemble_and_predicatedImm ..).trans (by decide))⟩

theorem shriM (T : LaneType) (vd vs1 : VIndex) (k : BitVec 6) (vm : MIndex) :
    Statement (.shriM T vd vs1 k vm) :=
  ⟨⟨.shriM, 0x4800000B#32, 0xFC00000F#32⟩, by simp [opcodeMap], rfl,
    beq_iff_eq.2 ((assemble_and_predicatedImm ..).trans (by decide))⟩

theorem shru (T : LaneType) (vd vs1 : VIndex) (rs : XIndex) : Statement (.shru T vd vs1 rs) :=
  ⟨⟨.shru, 0x5000000B#32, 0xFF88000F#32⟩, by simp [opcodeMap], rfl,
    beq_iff_eq.2 ((assemble_and_unpredicatedReg ..).trans (by rw [op2OfReg_high]; decide))⟩

theorem shrv (T : LaneType) (vd vs1 vs2 : VIndex) : Statement (.shrv T vd vs1 vs2) :=
  ⟨⟨.shrv, 0x6000000B#32, 0xFF88000F#32⟩, by simp [opcodeMap], rfl,
    beq_iff_eq.2 ((assemble_and_unpredicatedReg ..).trans (by rw [op2OfReg_high]; decide))⟩

theorem shrvM (T : LaneType) (vd vs1 vs2 : VIndex) (vm : MIndex) :
    Statement (.shrvM T vd vs1 vs2 vm) :=
  ⟨⟨.shrvM, 0x6800000B#32, 0xFC08000F#32⟩, by simp [opcodeMap], rfl,
    beq_iff_eq.2 ((assemble_and_predicatedReg ..).trans (by rw [op2OfReg_high]; decide))⟩

theorem rshri (T : LaneType) (vd vs1 : VIndex) (k : BitVec 6) : Statement (.rshri T vd vs1 k) :=
  ⟨⟨.rshri, 0x8000000B#32, 0xFF80000F#32⟩, by simp [opcodeMap], rfl,
    beq_iff_eq.2 ((assemble_and_unpredicatedImm ..).trans (by decide))⟩

theorem rshrv (T : LaneType) (vd vs1 vs2 : VIndex) : Statement (.rshrv T vd vs1 vs2) :=
  ⟨⟨.rshrv, 0xA000000B#32, 0xFF88000F#32⟩, by simp [opcodeMap], rfl,
    beq_iff_eq.2 ((assemble_and_unpredicatedReg ..).trans (by rw [op2OfReg_high]; decide))⟩

theorem mshift (vd vs1 vs2 : VIndex) : Statement (.mshift vd vs1 vs2) :=
  ⟨⟨.mshift, 0xE030000B#32, 0xFFF8000F#32⟩, by simp [opcodeMap], rfl,
    beq_iff_eq.2 ((assemble_and_mshift ..).trans (by rw [op2OfReg_high]; decide))⟩

end Sys2Proof.Laws.MatchesRow
end

