-- ==== Sys2Proof/Laws/Values.lean ====
section
/-!
SUPPORT. The integer a lane holds: its range, and the way back from an integer in that range to the lane.
-/

namespace Sys2Proof.Machine

open Sys2Proof

theorem two_pow_width (T : LaneType) : (2 : Int) ^ T.width = 2 * 2 ^ (T.width - 1) := by
  cases T <;> decide

/-- A lane's value lies between the smallest and the largest of its type (10_state.md R23). -/
theorem laneValue_range (T : LaneType) (x : BitVec T.width) :
    laneMin T ≤ laneValue T x ∧ laneValue T x ≤ laneMax T := by
  unfold laneValue laneMin laneMax
  split_ifs
  · have h1 := BitVec.two_mul_toInt_lt (x := x)
    have h2 := BitVec.le_two_mul_toInt (x := x)
    have h3 := two_pow_width T
    omega
  · have h1 : (x.toNat : Int) < 2 ^ T.width := by exact_mod_cast x.isLt
    omega

/-- An integer that fits the lane type is the value of its bit pattern. -/
theorem laneValue_ofInt {T : LaneType} {v : Int} (h1 : laneMin T ≤ v) (h2 : v ≤ laneMax T) :
    laneValue T (BitVec.ofInt T.width v) = v := by
  have h3 := two_pow_width T
  unfold laneMin laneMax at *
  cases hs : T.signed <;> simp only [hs, if_true, if_false, Bool.false_eq_true] at h1 h2
  · rw [laneValue_unsigned hs, BitVec.toNat_ofInt]
    push_cast
    rw [Int.toNat_of_nonneg (Int.emod_nonneg _ (by positivity)), Int.emod_eq_of_lt h1 (by omega)]
  · rw [laneValue_signed hs, BitVec.toInt_ofInt]
    apply Int.bmod_eq_of_le_mul_two <;> push_cast <;> omega

/-- A lane is determined by its value. -/
theorem laneValue_inj {T : LaneType} {x y : BitVec T.width} (h : laneValue T x = laneValue T y) :
    x = y := by
  unfold laneValue at h
  split_ifs at h
  · exact BitVec.eq_of_toInt_eq h
  · exact BitVec.eq_of_toNat_eq (by exact_mod_cast h)

/-- A quotient by a power of two fits the lane type. -/
theorem laneValue_div_range (T : LaneType) (x : BitVec T.width) (k : Nat) :
    laneMin T ≤ laneValue T x / 2 ^ k ∧ laneValue T x / 2 ^ k ≤ laneMax T := by
  obtain ⟨h1, h2⟩ := laneValue_range T x
  have hp : (0 : Int) < 2 ^ k := by positivity
  have hm : laneMin T ≤ 0 ∧ 0 ≤ laneMax T := by cases T <;> decide
  constructor
  · rw [Int.le_ediv_iff_mul_le hp]; nlinarith
  · apply Int.ediv_le_of_le_mul hp; nlinarith

/-- The value of a right shift is the floor of the quotient, for both fill rules (40_constant_shift.md R81). -/
theorem laneValue_shiftRight (T : LaneType) (x : BitVec T.width) (k : Nat) :
    laneValue T (shiftRight T x k) = laneValue T x / 2 ^ k :=
  laneValue_ofInt (laneValue_div_range T x k).1 (laneValue_div_range T x k).2

end Sys2Proof.Machine
end

