-- ==== Sys2Proof/Tests/Slice0.lean ====
section
/-!
SUPPORT. Tests of one step each, with the expected values of 95_test_vectors.md and of the examples of 30_encoding.md,
and for each statement with hypotheses a witness that meets them all.
-/

namespace Sys2Proof.Tests

open Sys2Proof Sys2Proof.Machine

/-! ### Helpers -/

/-- A state of `groups` groups with every register written: data in v1, a second operand in v2, the old
destination in v3, a mask in m1 and a scalar in x1; the rest holds 0. -/
def demo (groups v1 v2 v3 m1 x1 : Nat) : State :=
  let s := State.launchedReset groups
  let s := s.launchV 1 (BitVec.ofNat _ v1)
  let s := s.launchV 2 (BitVec.ofNat _ v2)
  let s := s.launchV 3 (BitVec.ofNat _ v3)
  let s := s.launchM 1 (BitVec.ofNat _ m1)
  s.launchX 1 (BitVec.ofNat 64 x1)

/-- The value whose fields of `w` bits are the given ones, field 0 first. -/
def fields (w : Nat) : List Nat → Nat
  | [] => 0
  | x :: xs => x + 2 ^ w * fields w xs

/-- The command completes with this value in v3, `pc` 4 and no exception. -/
def gives (i : Instr) (s : State) (v : Nat) : Bool :=
  match exec i s with
  | .next t => (t.vreg 3).toNat == v && t.pc == 4 && t.pending == none && t.draws == 0
  | _ => false

/-- The command completes and takes a draw. -/
def takesDraw (i : Instr) (s : State) : Bool :=
  match exec i s with
  | .next t => t.pc == 4 && t.pending == none && t.draws == 1 && t.xr == s.xr
  | _ => false

/-- The outcome is a next state with this `pc` and this report. -/
def reports (o : StepOutcome) (pc : BitVec 64) (r : Option Report) : Bool :=
  match o with
  | .next t => t.pc == pc && t.pending == r
  | _ => false

/-- The outcome is this fault. -/
def faults (o : StepOutcome) (f : Fault) : Bool :=
  match o with
  | .fault g => g == f
  | _ => false

/-- The outcome is this refusal. -/
def refuses (o : StepOutcome) (r : Refusal) : Bool :=
  match o with
  | .refused q => q == r
  | _ => false

/-! ### Well-formedness -/

theorem test_wf_refuses_each_immediate :
    Instr.wf (.shli .u8 1 2 8) = false ∧ Instr.wf (.shliZ .i8 1 2 8 3) = false ∧
    Instr.wf (.shliM .u16 1 2 16 3) = false ∧ Instr.wf (.shri .i16 1 2 16) = false ∧
    Instr.wf (.shriZ .u32 1 2 32 3) = false ∧ Instr.wf (.shriM .i32 1 2 32 3) = false ∧
    Instr.wf (.rshri .u8 1 2 63) = false := by decide

theorem test_wf_accepts_largest_immediate :
    Instr.wf (.shli .u8 1 2 7) = true ∧ Instr.wf (.shliZ .i16 1 2 15 3) = true ∧
    Instr.wf (.shriM .u32 1 2 31 3) = true ∧ Instr.wf (.rshri .i64 1 2 63) = true := by decide

/-! ### Decoding (30_encoding.md R66; 95_test_vectors.md section 2.7) -/

/-- The words of R66, and P5's SHLV and SHRV. -/
theorem test_decode_spec_examples :
    decode 0x0000C41B#32 = .command (.shli .u8 1 2 3) ∧
    decode 0x4053C63B#32 = .command (.shri .i16 3 3 15) ∧
    decode 0x0521CA4B#32 = .command (.shliZ .u32 4 5 7 2) ∧
    decode 0x48C08E6B#32 = .command (.shriM .i8 6 7 2 1) ∧
    decode 0x1032928B#32 = .command (.shlu .u64 8 9 10) ∧
    decode 0x606358BB#32 = .command (.shrv .i32 11 12 13) ∧
    decode 0x29941EEB#32 = .command (.shlvM .u16 14 15 16 3) ∧
    decode 0x8040651B#32 = .command (.rshri .i8 17 18 1) ∧
    decode 0xA025693B#32 = .command (.rshrv .u32 19 20 21) ∧
    decode 0xE0362F6B#32 = .command (.mshift 22 23 24) ∧
    decode 0x00000C5B#32 = .command (.shli .u8 5 6 0) ∧
    decode 0x2000402B#32 = .command (.shlv .u8 2 0 1) ∧
    decode 0x6000442B#32 = .command (.shrv .u8 2 2 1) := by decide

/-- The commands without an example in R66, written field by field in the order of R51: kind, src, pm, vm, lt,
op2, vs1, vd, major. -/
theorem test_decode_words_by_hand :
    decode (0b00#2 ++ 0b00#2 ++ 0b10#2 ++ 0b111#3 ++ 0b011#3 ++ 0b111111#6 ++ 0b11110#5 ++ 0b11111#5 ++
      0b1011#4) = .command (.shliM .u64 31 30 63 7) ∧
    decode (0b01#2 ++ 0b00#2 ++ 0b01#2 ++ 0b011#3 ++ 0b101#3 ++ 0b001111#6 ++ 0b00101#5 ++ 0b00110#5 ++
      0b1011#4) = .command (.shriZ .i16 6 5 15 3) ∧
    decode (0b01#2 ++ 0b01#2 ++ 0b00#2 ++ 0b000#3 ++ 0b111#3 ++ 0b011111#6 ++ 0b00010#5 ++ 0b00001#5 ++
      0b1011#4) = .command (.shru .i64 1 2 31) ∧
    decode (0b01#2 ++ 0b10#2 ++ 0b10#2 ++ 0b100#3 ++ 0b110#3 ++ 0b010001#6 ++ 0b10000#5 ++ 0b01111#5 ++
      0b1011#4) = .command (.shrvM .i32 15 16 17 4) := by decide

/-- D-E1, D-E2, D-E4 to D-E7. -/
theorem test_decode_illegal_fields :
    decode 0x00000000#32 = .raises .illegalCommand ∧ decode 0x0000C41A#32 = .raises .illegalCommand ∧
    decode 0x0080C41B#32 = .raises .illegalCommand ∧ decode 0x3000000B#32 = .raises .illegalCommand ∧
    decode 0x0C00000B#32 = .raises .illegalCommand ∧ decode 0x1008000B#32 = .raises .illegalCommand := by
  decide

/-- D-E8 to D-E13, D-E18. -/
theorem test_decode_illegal_forms :
    decode 0x2400000B#32 = .raises .illegalCommand ∧ decode 0x9000000B#32 = .raises .illegalCommand ∧
    decode 0x8400000B#32 = .raises .illegalCommand ∧ decode 0xE000000B#32 = .raises .illegalCommand ∧
    decode 0xC030000B#32 = .raises .illegalCommand ∧ decode 0xE830000B#32 = .raises .illegalCommand ∧
    decode 0x0082000B#32 = .raises .illegalCommand := by decide

/-- D-E14, D-E15, D-E17; and the legal words D-E16, D-E19. -/
theorem test_decode_immediate_range :
    decode 0x0002000B#32 = .raises .immOutOfRange ∧ decode 0x0014000B#32 = .raises .immOutOfRange ∧
    decode 0x8042000B#32 = .raises .immOutOfRange ∧
    decode 0x003FC00B#32 = .command (.shli .u64 0 0 63) ∧
    decode 0x5000000B#32 = .command (.shru .u8 0 0 0) := by decide

/-- No two rows of the opcode map accept the same word (30_encoding.md R59). -/
theorem test_rows_disjoint :
    opcodeMap.Pairwise fun a b => a.mask &&& b.mask &&& (a.pattern ^^^ b.pattern) ≠ 0 := by decide

theorem test_encode_spec_examples :
    encode (.shli .u8 1 2 3) = 0x0000C41B#32 ∧ encode (.shri .i16 3 3 15) = 0x4053C63B#32 ∧
    encode (.shliZ .u32 4 5 7 2) = 0x0521CA4B#32 ∧ encode (.shriM .i8 6 7 2 1) = 0x48C08E6B#32 ∧
    encode (.shlu .u64 8 9 10) = 0x1032928B#32 ∧ encode (.shrv .i32 11 12 13) = 0x606358BB#32 ∧
    encode (.shlvM .u16 14 15 16 3) = 0x29941EEB#32 ∧ encode (.rshri .i8 17 18 1) = 0x8040651B#32 ∧
    encode (.rshrv .u32 19 20 21) = 0xA025693B#32 ∧ encode (.mshift 22 23 24) = 0xE0362F6B#32 := by
  decide

theorem test_decode_table_word :
    decodeTableWord 32 0x29941EEB = some (.shlvM .u16 14 15 16 3) ∧ decodeTableWord 32 0 = none := by
  decide

/-! ### The commands, on the vectors of 95_test_vectors.md -/

/-- S6. -/
theorem test_shli_wraps :
    gives (.shli .u8 3 1 7) (demo 1 (fields 8 [0, 1, 2, 3, 4, 5, 6, 7]) 0 0 0 0)
      (fields 8 [0, 128, 0, 128, 0, 128, 0, 128]) = true := by decide

/-- D-C5, D-C14. -/
theorem test_shli_into_sign :
    gives (.shli .i8 3 1 1) (demo 1 0x7F 0 0 0 0) 0xFE = true ∧
    gives (.shli .i16 3 1 1) (demo 1 0x4000 0 0 0 0) 0x8000 = true := by decide

/-- D-C4, D-C7, D-C16. -/
theorem test_shri_arithmetic :
    gives (.shri .i8 3 1 1) (demo 1 0x81 0 0 0 0) 0xC0 = true ∧
    gives (.shri .i8 3 1 7) (demo 1 0x80 0 0 0 0) 0xFF = true ∧
    gives (.shri .i32 3 1 4) (demo 1 0xDEADBEEF 0 0 0 0) 0xFDEADBEE = true := by decide

/-- D-C2, D-C21. -/
theorem test_shri_logical :
    gives (.shri .u8 3 1 1) (demo 1 0x81 0 0 0 0) 0x40 = true ∧
    gives (.shri .u64 3 1 4) (demo 1 0xFFFFFFFFFFFFFF00 0 0 0 0) 0x0FFFFFFFFFFFFFF0 = true := by decide

/-- D-U1, D-U8. -/
theorem test_shlu_in_range :
    gives (.shlu .u16 3 1 1) (demo 1 0x1234 0 0 0 4) 0x2340 = true ∧
    gives (.shlu .u64 3 1 1) (demo 1 1 0 0 0 63) 0x8000000000000000 = true := by decide

/-- D-U6, D-U7. -/
theorem test_shlu_draws :
    takesDraw (.shlu .u16 3 1 1) (demo 1 0x1234 0 0 0 16) = true ∧
    takesDraw (.shlu .u8 3 1 1) (demo 1 0x12 0 0 0 0xFFFFFFFFFFFFFFFF) = true := by decide

/-- D-U2, D-U3. -/
theorem test_shru_in_range :
    gives (.shru .i16 3 1 1) (demo 1 0x8000 0 0 0 4) 0xF800 = true ∧
    gives (.shru .u16 3 1 1) (demo 1 0x8000 0 0 0 4) 0x0800 = true := by decide

/-- D-U6, D-U7. -/
theorem test_shru_draws :
    takesDraw (.shru .u16 3 1 1) (demo 1 0x1234 0 0 0 16) = true ∧
    takesDraw (.shru .u8 3 1 1) (demo 1 0x12 0 0 0 0xFFFFFFFFFFFFFFFF) = true := by decide

/-- D-V5. -/
theorem test_shlv_counts_wrap :
    gives (.shlv .u8 3 1 2)
      (demo 1 0x8181818181818181 (fields 8 [8, 9, 15, 16, 255, 0x87, 0xF9, 7]) 0 0 0)
      (fields 8 [0x81, 0x02, 0x80, 0x81, 0x80, 0x80, 0x02, 0x80]) = true := by decide

/-- D-V5 with both fills. -/
theorem test_shrv_counts_wrap :
    gives (.shrv .u8 3 1 2)
      (demo 1 0x8181818181818181 (fields 8 [8, 9, 15, 16, 255, 0x87, 0xF9, 7]) 0 0 0)
      (fields 8 [0x81, 0x40, 0x01, 0x81, 0x01, 0x01, 0x40, 0x01]) = true ∧
    gives (.shrv .i8 3 1 2)
      (demo 1 0x8181818181818181 (fields 8 [8, 9, 15, 16, 255, 0x87, 0xF9, 7]) 0 0 0)
      (fields 8 [0x81, 0xC0, 0xFF, 0x81, 0xFF, 0xFF, 0xC0, 0xFF]) = true := by decide

/-- The second command of P5 has `vd = vs1`; here `vd = vs2` too (10_state.md R28), D-V8. -/
theorem test_shrv_destination_is_source :
    gives (.shrv .i32 3 1 3) (demo 1 0x80000000 0 0xFFFFFFFF 0 0) 0xFFFFFFFF = true := by decide

/-- D-R1, D-R9, D-R10: lanes of the overflow band round up without wrapping. -/
theorem test_rshri_overflow_band :
    gives (.rshri .u8 3 1 1) (demo 1 0xFF 0 0 0 0) 0x80 = true ∧
    gives (.rshri .i8 3 1 1) (demo 1 0x7F 0 0 0 0) 0x40 = true ∧
    gives (.rshri .i8 3 1 7) (demo 1 0x7F 0 0 0 0) 0x01 = true := by decide

/-- D-R14, D-R15, D-R23. -/
theorem test_rshri_ties_up :
    gives (.rshri .i8 3 1 1) (demo 1 0xFD 0 0 0 0) 0xFF = true ∧
    gives (.rshri .i8 3 1 1) (demo 1 0xFF 0 0 0 0) 0x00 = true ∧
    gives (.rshri .u8 3 1 0) (demo 1 0x80 0 0 0 0) 0x80 = true := by decide

/-- The RSHRV examples below D-R23. -/
theorem test_rshrv_counts_wrap :
    gives (.rshrv .u32 3 1 2) (demo 1 (fields 32 [3, 3]) (fields 32 [33, 32]) 0 0 0)
      (fields 32 [2, 3]) = true ∧
    gives (.rshrv .u32 3 1 2) (demo 1 3 0xFFFFFFFF 0 0 0) 0 = true ∧
    gives (.rshrv .i8 3 1 2) (demo 1 0x7F 0x81 0 0 0) 0x40 = true := by decide

/-- D-M2. -/
theorem test_shliZ_partial_mask :
    gives (.shliZ .u8 3 1 3 1) (demo 2 0x0F0E0D0C0B0A09080706050403020100 0 0 0x001F 0)
      0x00000000000000000000002018100800 = true := by decide

/-- D-M5. -/
theorem test_shriZ_one_active :
    gives (.shriZ .i8 3 1 7 1) (demo 1 0x8080808080808080 0 0x1111111111111111 0x01 0) 0xFF = true := by
  decide

/-- D-M6. -/
theorem test_shliM_keeps_inactive :
    gives (.shliM .u8 3 1 2 1)
      (demo 1 (fields 8 [1, 2, 3, 4, 5, 6, 7, 8]) 0 0x0909090909090909 0xAA 0)
      (fields 8 [9, 8, 9, 16, 9, 24, 9, 32]) = true := by decide

/-- D-M8, D-M9. -/
theorem test_shriM_each_lane :
    gives (.shriM .i64 3 1 62 1)
      (demo 2 (fields 64 [0x8000000000000000, 0x7FFFFFFFFFFFFFFF]) 0
        (fields 64 [0x1111111111111111, 0x2222222222222222]) 1 0)
      0x2222222222222222FFFFFFFFFFFFFFFE = true ∧
    gives (.shriM .i64 3 1 62 1)
      (demo 2 (fields 64 [0x8000000000000000, 0x7FFFFFFFFFFFFFFF]) 0
        (fields 64 [0x1111111111111111, 0x2222222222222222]) 2 0)
      0x00000000000000011111111111111111 = true := by decide

/-- D-M11. -/
theorem test_shlvM_merges :
    gives (.shlvM .u16 3 1 2 1)
      (demo 1 (fields 16 [1, 1, 1, 1]) (fields 16 [17, 17, 0, 15])
        (fields 16 [0xAAAA, 0xBBBB, 0xCCCC, 0xDDDD]) 5 0)
      (fields 16 [0x0002, 0xBBBB, 0x0001, 0xDDDD]) = true := by decide

/-- D-M12. -/
theorem test_shrvM_wraps_counts :
    gives (.shrvM .i32 3 1 2 1)
      (demo 1 (fields 32 [0xFFFFFF00, 0xFFFFFF00]) (fields 32 [4, 36]) (fields 32 [7, 7]) 3 0)
      (fields 32 [0xFFFFFFF0, 0xFFFFFFF0]) = true := by decide

/-- D-X5, D-X6. -/
theorem test_mshift_windows_wrap :
    gives (.mshift 3 1 2)
      (demo 2 0xFEDCBA98765432100123456789ABCDEF 0x3F3F3E3D3C3B3A393F3F3E3D3C3B3A39 0 0 0)
      0x212143870F1F3F7FDEDEBC78F0E0C080 = true ∧
    gives (.mshift 3 1 2)
      (demo 2 0xFEDCBA98765432100123456789ABCDEF 0xF8F9FAFBFCFDFEFF7870686058504840 0 0 0)
      0xFE7F3F1F0F8743210123456789ABCDEF = true := by decide

/-- D-X2, D-X3. -/
theorem test_mshift_bytes :
    gives (.mshift 3 1 2)
      (demo 2 0xFEDCBA98765432100123456789ABCDEF 0x00081018202830380008101820283038 0 0 0)
      0x1032547698BADCFEEFCDAB8967452301 = true ∧
    gives (.mshift 3 1 2) (demo 2 0xFEDCBA98765432100123456789ABCDEF 0 0 0 0)
      0x1010101010101010EFEFEFEFEFEFEFEF = true := by decide

/-! ### Stops, steps and the ends of a run -/

/-- D-M13. -/
theorem test_merge_base_unwritten :
    faults (exec (.shliM .u8 3 1 1 1)
        (((State.unwrittenReset 1).launchV 1 1).launchM 1 0))
      (.unwrittenRead (.shliM .u8 3 1 1 1) (.v 3)) = true := by decide

theorem test_unwritten_reset_read :
    faults (exec (.shlu .u8 3 1 1) (State.unwrittenReset 1))
      (.unwrittenRead (.shlu .u8 3 1 1) (.v 1)) = true := by decide

theorem test_fetch_word_runs :
    reports (step (State.reset.withFetchWord 32 0x0000C41B)) 4 none = true ∧
    reports (step (State.reset.withFetchWord 32 0x0000C41A)) 0
      (some ⟨.illegalCommand, 0x0000C41A⟩) = true ∧
    reports (step (State.reset.withFetchWord 32 0x0002000B)) 0
      (some ⟨.immOutOfRange, 0x0002000B⟩) = true := by decide

theorem test_step_stops_by_name :
    refuses (step State.reset) .runCompleted = true ∧
    refuses (step (State.raise (State.reset.withFetchWord 32 0) .illegalCommand 0))
      .runEndedByException = true ∧
    refuses (step { State.reset with pc := 2 }) .pcOutsideStream = true := by decide

/-! ### Every statement's hypotheses can be met together

One theorem for each statement that has hypotheses, under its name. -/

/-- The outcome is a next state. -/
def isNext (o : StepOutcome) : Bool :=
  match o with
  | .next _ => true
  | _ => false

theorem exists_next {o : StepOutcome} (h : isNext o = true) : ∃ t, o = .next t := by
  cases o with
  | next t => exact ⟨t, rfl⟩
  | fault _ => cases h
  | refused _ => cases h

/-- The outcome is a next state with no draw taken. -/
def isPlainNext (o : StepOutcome) (draws : Nat) : Bool :=
  match o with
  | .next t => t.draws == draws
  | _ => false

theorem exists_plain_next {o : StepOutcome} {d : Nat} (h : isPlainNext o d = true) :
    ∃ t, o = .next t ∧ t.draws = d := by
  cases o with
  | next t => exact ⟨t, rfl, by simpa [isPlainNext] using h⟩
  | fault _ => cases h
  | refused _ => cases h

/-- `demo` of one group, every operand with bits of both kinds. -/
def ready : State := demo 1 0x8182838485868788 0x0001020304050607 0x1122334455667788 0x55 3

/-- `ready` with a stream of one word. -/
def readyAt (c : Command) : State := ready.placeStream [c]

theorem inv_readyAt (c : Command) : (readyAt c).Inv :=
  ⟨by show 0 < ready.vgroups; decide, by show ready.pc.toNat % 4 = 0; decide,
    by show ready.pc.toNat ≤ 4 * 1; decide, by
    intro r hr
    cases (show (none : Option Report) = some r from hr)⟩

theorem test_hyps_StepRunsDecodedCommand :
    (readyAt 0x0000C41B).pending = none ∧ (readyAt 0x0000C41B).pc.toNat % 4 = 0 ∧
    (readyAt 0x0000C41B).stream[(readyAt 0x0000C41B).pc.toNat / 4]? = some 0x0000C41B#32 ∧
    decode 0x0000C41B#32 = .command (.shli .u8 1 2 3) := by decide

theorem test_hyps_StepTakesDecodeException :
    (readyAt 0x0002000B).pending = none ∧ (readyAt 0x0002000B).pc.toNat % 4 = 0 ∧
    (readyAt 0x0002000B).stream[(readyAt 0x0002000B).pc.toNat / 4]? = some 0x0002000B#32 ∧
    decode 0x0002000B#32 = .raises .immOutOfRange := by decide

theorem test_hyps_EncodeOfDecode : ∃ i, decode 0xE0362F6B#32 = .command i :=
  ⟨.mshift 22 23 24, by decide⟩

theorem test_hyps_ResetMeetsInvariant : 0 < 1 := by decide

/-- A step that completes and a step that raises, both from a state with the invariant. -/
theorem test_hyps_StepKeepsInvariant :
    (∃ s t, s.Inv ∧ step s = .next t ∧ t.pending = none) ∧
    (∃ s t, s.Inv ∧ step s = .next t ∧ t.pending ≠ none) := by
  refine ⟨⟨readyAt 0x0000C41B, ?_⟩, ⟨readyAt 0x0002000B, ?_⟩⟩
  · obtain ⟨t, h⟩ := exists_next (show isNext (step (readyAt 0x0000C41B)) = true by decide)
    refine ⟨t, inv_readyAt _, h, ?_⟩
    have hp : reports (step (readyAt 0x0000C41B)) 4 none = true := by decide
    simp only [h, reports, Bool.and_eq_true, beq_iff_eq] at hp
    exact hp.2
  · obtain ⟨t, h⟩ := exists_next (show isNext (step (readyAt 0x0002000B)) = true by decide)
    refine ⟨t, inv_readyAt _, h, ?_⟩
    have hp : reports (step (readyAt 0x0002000B)) 0 (some ⟨.immOutOfRange, 0x0002000B⟩) = true := by
      decide
    simp only [h, reports, Bool.and_eq_true, beq_iff_eq] at hp
    rw [hp.2]
    exact Option.some_ne_none _

/-- Both clauses: a command that completes, and one whose immediate is out of range. -/
theorem test_hyps_CompletingWritesOnlyDestination :
    reports (exec (.shli .u8 3 1 7) ready) 4 none = true ∧
    reports (exec (.shli .u8 3 1 8) ready) 0
      (some ⟨.immOutOfRange, encode (.shli .u8 3 1 8)⟩) = true := by decide

/-- Both outcomes. -/
theorem test_hyps_IssueCompletesOrRaisesOne :
    reports (issue 0x0000C41B ready) 4 none = true ∧
    reports (issue 0x0000C41A ready) 0 (some ⟨.illegalCommand, 0x0000C41A⟩) = true := by decide

/-- Both clauses at `pc = 0`. -/
theorem test_hyps_CounterMovesOnOrStays :
    (readyAt 0x0000C41B).pc.toNat % 4 = 0 ∧ reports (step (readyAt 0x0000C41B)) 4 none = true ∧
    reports (step (readyAt 0x0000C41A)) 0 (some ⟨.illegalCommand, 0x0000C41A⟩) = true := by decide

/-- The last offset below `2^64`, in a stream long enough to have a word there: the counter wraps to 0. -/
theorem test_counter_wraps :
    ∃ s t : State, s.pc = 0xFFFFFFFFFFFFFFFC#64 ∧ s.pc.toNat % 4 = 0 ∧ step s = .next t ∧ t.pc = 0 := by
  refine ⟨{ ready with
    pc := 0xFFFFFFFFFFFFFFFC#64
    stream := List.replicate (2 ^ 62) 0x0000C41B#32 }, ?_⟩
  generalize hs : ({ ready with
    pc := 0xFFFFFFFFFFFFFFFC#64
    stream := List.replicate (2 ^ 62) 0x0000C41B#32 } : State) = s
  have hpc : s.pc = 0xFFFFFFFFFFFFFFFC#64 := by rw [← hs]
  have hw : s.wordAtPc = some 0x0000C41B#32 := by
    rw [wordAtPc_of_aligned (by rw [hpc]; decide), hpc, ← hs]
    exact List.getElem?_replicate_of_lt (by decide)
  have hp : s.pending = none := by rw [← hs]; rfl
  have h2 : s.written (.v 2) = true := by rw [← hs]; decide
  have hd : decode 0x0000C41B#32 = .command (.shli .u8 1 2 3) := by decide
  refine ⟨s.complete 1 (mapLanes .u8 (shiftLeft .u8) (s.vreg 2) 3), hpc, by rw [hpc]; decide, ?_, ?_⟩
  · simp only [step, runCommand, hp, hw, issue, hd, Option.isSome_none, Bool.false_eq_true, if_false]
    exact constantForm_completes (T := .u8) (k := 3#6) (by decide) h2
  · rw [State.complete_pc, hpc]; rfl

theorem test_hyps_WrittenRunNeverFaults : AllWritten State.reset ∧ ∃ s t, AllWritten s ∧
    step s = .next t := by
  have h : ∀ s : State, s.vrWritten = Vector.replicate 32 true →
      s.mrWritten = Vector.replicate 8 true → s.xrWritten = Vector.replicate 32 true → AllWritten s := by
    intro s hv hm hx r
    cases r <;> simp [State.written, hv, hm, hx]
  refine ⟨h _ rfl rfl rfl, readyAt 0x0000C41B, ?_⟩
  obtain ⟨t, ht⟩ := exists_next (show isNext (step (readyAt 0x0000C41B)) = true by decide)
  exact ⟨t, h _ (by decide) (by decide) (by decide), ht⟩

/-- The fault names the first unwritten source (log entry 4). -/
theorem test_hyps_UnwrittenReadFaults :
    Instr.wf (.shlv .u8 3 1 2) = true ∧
    (∃ f, exec (.shlv .u8 3 1 2) (State.unwrittenReset 1) = .fault f) ∧
    faults (exec (.shlv .u8 3 1 2) ((State.unwrittenReset 1).launchV 1 0))
      (.unwrittenRead (.shlv .u8 3 1 2) (.v 2)) = true :=
  ⟨by decide, ⟨_, rfl⟩, by decide⟩

theorem test_hyps_MergeBaseAlwaysRead :
    (7#6).toNat < LaneType.u8.width ∧
    State.written (((State.unwrittenReset 1).launchV 1 1).launchM 1 0) (.v 1) = true ∧
    State.written (((State.unwrittenReset 1).launchV 1 1).launchM 1 0) (.m 1) = true ∧
    State.written (((State.unwrittenReset 1).launchV 1 1).launchM 1 0) (.v 3) = false := by decide

/-- The three clauses: a report pending, the end of the stream, a word at `pc`. -/
theorem test_hyps_RunEndsWhereTheSpecSays :
    (∃ s : State, s.Inv ∧ s.pending.isSome = true) ∧
    (∃ s : State, s.Inv ∧ s.pending = none ∧ s.pc.toNat = 4 * s.stream.length) ∧
    (∃ s : State, s.Inv ∧ s.pending = none ∧ s.pc.toNat ≠ 4 * s.stream.length) := by
  refine ⟨⟨(readyAt 0).raise .illegalCommand 0, ⟨by decide, by decide, by decide, ?_⟩, rfl⟩,
    ⟨ready, ⟨by decide, by decide, by decide, ?_⟩, by decide, by decide⟩,
    ⟨readyAt 0, inv_readyAt 0, by decide, by decide⟩⟩
  · intro r hr
    obtain rfl : (⟨.illegalCommand, 0⟩ : Report) = r := Option.some.inj hr
    decide
  · intro r hr
    cases (show (none : Option Report) = some r from hr)

theorem test_hyps_NoDataDependentException :
    Instr.wf (.shlvM .i16 3 1 2 1) = true ∧ Ready ready (.shlvM .i16 3 1 2 1) := by
  refine ⟨rfl, ?_⟩
  unfold Ready
  decide

theorem test_hyps_OutOfRangeImmediateTakesException :
    Instr.wf (.rshri .u8 3 1 8) = false ∧ Instr.wf (.shriM .i32 3 1 63 1) = false := by decide

/-- Two states that differ outside the operands of SHLU. -/
theorem test_hyps_ResultIsFunctionOfOperands :
    Instr.wf (.shlu .u8 3 1 1) = true ∧ ready.vgroups = (ready.launchV 3 0).vgroups ∧
    (∀ r ∈ sourcesOf (.shlu .u8 3 1 1), ready.regBits r = (ready.launchV 3 0).regBits r) ∧
    (∃ t, exec (.shlu .u8 3 1 1) ready = .next t ∧ t.draws = ready.draws) ∧
    (∃ t', exec (.shlu .u8 3 1 1) (ready.launchV 3 0) = .next t') :=
  ⟨by decide, by decide, by decide,
    exists_plain_next (show isPlainNext (exec (.shlu .u8 3 1 1) ready) ready.draws = true by decide),
    exists_next (by decide)⟩

/-- A command whose `vd` is a source and a merging command. -/
theorem test_hyps_SourcesReadBeforeDestination :
    (Instr.wf (.shlv .u8 1 1 1) = true ∧ isMerging (.shlv .u8 1 1 1) = false ∧
      (∃ t, exec (.shlv .u8 1 1 1) ready = .next t ∧ t.draws = ready.draws) ∧
      (∃ t', exec (withDest 5 (.shlv .u8 1 1 1)) ready = .next t')) ∧
    (isMerging (.shlvM .u8 1 2 1 1) = true ∧
      (ready.launchV 5 (ready.vreg 1)).vreg 5
        = (ready.launchV 5 (ready.vreg 1)).vreg (destOf (.shlvM .u8 1 2 1 1)) ∧
      (∃ t, exec (.shlvM .u8 1 2 1 1) (ready.launchV 5 (ready.vreg 1)) = .next t ∧ t.draws = 0) ∧
      (∃ t', exec (withDest 5 (.shlvM .u8 1 2 1 1)) (ready.launchV 5 (ready.vreg 1)) = .next t')) :=
  ⟨⟨by decide, by decide,
    exists_plain_next (show isPlainNext (exec (.shlv .u8 1 1 1) ready) ready.draws = true by decide),
    exists_next (by decide)⟩,
   ⟨by decide, by decide,
    exists_plain_next (show isPlainNext (exec (.shlvM .u8 1 2 1 1) _) 0 = true by decide),
    exists_next (by decide)⟩⟩

/-- The hypotheses of ShliResult, ShriResult and RshriResult, at the largest amount. -/
theorem test_hyps_constant_results :
    (63#6).toNat < LaneType.i64.width ∧ ready.written (.v 1) = true := by decide

/-- The hypotheses of ShluResult and ShruResult, at the largest count. -/
theorem test_hyps_uniform_results :
    (ready.launchX 2 7).written (.v 1) = true ∧ (ready.launchX 2 7).written (.x 2) = true ∧
    ((ready.launchX 2 7).xreg 2).toNat < LaneType.u8.width := by decide

/-- The smallest count out of range. -/
theorem test_hyps_OutOfRangeUniformCountDraws :
    (ready.launchX 2 8).written (.v 1) = true ∧ (ready.launchX 2 8).written (.x 2) = true ∧
    LaneType.u8.width ≤ ((ready.launchX 2 8).xreg 2).toNat := by decide

/-- The hypotheses of ShlvResult, ShrvResult, RshrvResult and MshiftResult. -/
theorem test_hyps_variable_results :
    ready.written (.v 1) = true ∧ ready.written (.v 2) = true := by decide

/-- The hypotheses of ShliZResult, ShriZResult, ShliMResult, ShriMResult, ShlvMResult, ShrvMResult and
AllActiveMaskIsNoMask, whose mask clause is met by the second state. -/
theorem test_hyps_masked_results :
    (7#6).toNat < LaneType.u8.width ∧ ready.written (.v 1) = true ∧ ready.written (.v 2) = true ∧
    ready.written (.m 1) = true ∧ ready.written (.v 3) = true ∧
    (ready.launchM 1 0xFF#8).written (.m 1) = true ∧
    (∀ i < laneCount .u8 (ready.launchM 1 0xFF#8).vlen,
      ((ready.launchM 1 0xFF#8).mreg 1).getLsbD i = true) := by decide

/-- The hypotheses of ShiftLeftLaneRule, ShiftRightLaneRule, LeftThenRightKeepsLowBits and
ShiftsComposeAdditively, at the largest amounts of an unsigned and of a signed type. -/
theorem test_hyps_lane_rules :
    LaneType.u8.signed = false ∧ LaneType.i64.signed = true ∧ 7 < LaneType.u8.width ∧
    3 + 4 < LaneType.u8.width ∧ 63 < LaneType.i64.width := by decide

/-- The last lanes of two states of different `VLEN` with the same data there. -/
theorem test_hyps_ConstantShiftLanesIndependent :
    (7#6).toNat < LaneType.u8.width ∧
    (∃ t, exec (.shri .u8 3 1 7) ready = .next t) ∧
    (∃ t', exec (.shri .u8 3 1 7) (demo 2 0x8182838485868788 0 0 0 0) = .next t') ∧
    7 < laneCount .u8 ready.vlen ∧ 7 < laneCount .u8 (demo 2 0x8182838485868788 0 0 0 0).vlen ∧
    lane .u8 (ready.vreg 1) 7 = lane .u8 ((demo 2 0x8182838485868788 0 0 0 0).vreg 1) 7 :=
  ⟨by decide, exists_next (by decide), exists_next (by decide), by decide, by decide, by decide⟩

theorem test_hyps_VariableLeftThenRightKeepsLowBits :
    LaneType.u8.signed = false ∧ (3 : VIndex) ≠ 2 ∧ ready.written (.v 1) = true ∧
    ready.written (.v 2) = true := by decide

/-- States of different `VLEN` that agree in lane 0 of data and counts. -/
theorem test_hyps_VariableShiftLanesIndependent :
    (∃ t, exec (.shlv .u8 3 1 2) ready = .next t) ∧
    (∃ t', exec (.shlv .u8 3 1 2) (demo 2 0x88 0x07 0 0 0) = .next t') ∧
    0 < laneCount .u8 ready.vlen ∧ 0 < laneCount .u8 (demo 2 0x88 0x07 0 0 0).vlen ∧
    lane .u8 (ready.vreg 1) 0 = lane .u8 ((demo 2 0x88 0x07 0 0 0).vreg 1) 0 ∧
    lane .u8 (ready.vreg 2) 0 = lane .u8 ((demo 2 0x88 0x07 0 0 0).vreg 2) 0 :=
  ⟨exists_next (by decide), exists_next (by decide), by decide, by decide, by decide, by decide⟩

/-- The hypotheses of RoundingClosedFormAndRange, WrappingFormAgreesOutsideBand and
RoundingMinusTruncation: a lane in the overflow band and one outside, at the smallest and the largest amount. -/
theorem test_hyps_rounding :
    1 ≤ 7 ∧ 7 < LaneType.u8.width ∧ 1 < LaneType.u8.width ∧
    ¬ laneValue .u8 0xC0#8 + 2 ^ (7 - 1) ≤ laneMax .u8 ∧ laneValue .u8 0xBF#8 + 2 ^ (7 - 1) ≤ laneMax .u8 ∧
    LaneType.u8.signed = false ∧ LaneType.i8.signed = true := by decide

/-- Every pair of commands completes from `ready`. -/
theorem test_hyps_PredicatedIsGateOfUnpredicated :
    ∀ i ∈ ([.shli .u8 3 1 7, .shri .u8 3 1 7, .shlv .u8 3 1 2, .shrv .u8 3 1 2, .shliZ .u8 3 1 7 1,
      .shriZ .u8 3 1 7 1, .shliM .u8 3 1 7 1, .shriM .u8 3 1 7 1, .shlvM .u8 3 1 2 1,
      .shrvM .u8 3 1 2 1] : List Instr), i.wf = true ∧ ∃ t, exec i ready = .next t := by
  intro i hi
  refine ⟨?_, ?_⟩
  · revert i; decide
  · simp only [List.mem_cons, List.not_mem_nil, or_false] at hi
    obtain rfl | rfl | rfl | rfl | rfl | rfl | rfl | rfl | rfl | rfl := hi <;>
      exact exists_next (by decide)

/-- An active lane, 0, and an inactive one, 1, of a merging command, in two states that differ in another
lane of the data. -/
theorem test_hyps_InactiveLanesHaveNoEffect :
    Instr.wf (.shliM .u8 3 1 2 1) = true ∧ isMerging (.shliM .u8 3 1 2 1) = true ∧
    (∃ t, exec (.shliM .u8 3 1 2 1) ready = .next t) ∧
    (∃ t', exec (.shliM .u8 3 1 2 1) (ready.launchV 1 0x88#64) = .next t') ∧
    0 < laneCount .u8 ready.vlen ∧ 1 < laneCount .u8 (ready.launchV 1 0x88#64).vlen ∧
    (ready.mreg 1).getLsbD 0 = true ∧ (ready.mreg 1).getLsbD 1 = false ∧
    lane .u8 (ready.vreg 1) 0 = lane .u8 ((ready.launchV 1 0x88#64).vreg 1) 0 ∧
    lane .u8 (ready.vreg 3) 1 = lane .u8 ((ready.launchV 1 0x88#64).vreg 3) 1 :=
  ⟨by decide, by decide, exists_next (by decide), exists_next (by decide), by decide, by decide,
    by decide, by decide, by decide, by decide⟩

/-- States of different `VLEN` that agree in group 0. -/
theorem test_hyps_GroupsNeverCross :
    (∃ t, exec (.mshift 3 1 2) ready = .next t) ∧
    (∃ t', exec (.mshift 3 1 2) (demo 2 0x8182838485868788 0x0001020304050607 0 0 0) = .next t') ∧
    0 < ready.vgroups ∧ 0 < (demo 2 0x8182838485868788 0x0001020304050607 0 0 0).vgroups ∧
    rotationGroup (ready.vreg 1) 0
      = rotationGroup ((demo 2 0x8182838485868788 0x0001020304050607 0 0 0).vreg 1) 0 ∧
    rotationGroup (ready.vreg 2) 0
      = rotationGroup ((demo 2 0x8182838485868788 0x0001020304050607 0 0 0).vreg 2) 0 :=
  ⟨exists_next (by decide), exists_next (by decide), by decide, by decide, by decide, by decide⟩

/-- The identity indices, the reversing indices, and an index byte of 248 = 8 * 31. -/
theorem test_hyps_ByteIndicesPermuteGroups :
    (∃ t, exec (.mshift 3 1 2) (ready.launchV 2 0x3830282018100800#64) = .next t) ∧
    (∀ g < 1, ∀ j < 8,
      (byte ((ready.launchV 2 0x3830282018100800#64).vreg 2) (8 * g + j)).toNat = 8 * j) ∧
    (∃ t, exec (.mshift 3 1 2) (ready.launchV 2 0x0008101820283038#64) = .next t) ∧
    (∀ g < 1, ∀ j < 8,
      (byte ((ready.launchV 2 0x0008101820283038#64).vreg 2) (8 * g + j)).toNat = 8 * (7 - j)) ∧
    (byte ((ready.launchV 2 0xF8#64).vreg 2) (8 * 0 + 0)).toNat = 8 * 31 :=
  ⟨exists_next (by decide), by decide, exists_next (by decide), by decide, by decide⟩

/-- Two index registers that differ only above the low six bits of each byte. -/
theorem test_hyps_OnlyLowIndexBitsMatter :
    (∃ t, exec (.mshift 3 1 2) (ready.launchV 4 0xC0C1C2C3C4C5C6C7#64) = .next t) ∧
    (∃ t', exec (.mshift 3 1 4) (ready.launchV 4 0xC0C1C2C3C4C5C6C7#64) = .next t') ∧
    (∀ p < 8 * 1, (byte ((ready.launchV 4 0xC0C1C2C3C4C5C6C7#64).vreg 2) p).toNat % 64
      = (byte ((ready.launchV 4 0xC0C1C2C3C4C5C6C7#64).vreg 4) p).toNat % 64) :=
  ⟨exists_next (by decide), exists_next (by decide), by decide⟩

theorem test_hyps_ShiftByZeroCopies : ready.written (.v 1) = true := by decide

end Sys2Proof.Tests
end

namespace Sys2Proof.Machine

open Sys2Proof

/-! ### The invariant of a run is kept by every step -/

/-- A command the decoder answers has the word it was read from, and its immediate is in range
(30_encoding.md R60, R63). -/
theorem encode_and_wf_of_decode {c : Command} {i : Instr} (h : decode c = .command i) :
    encode i = c ∧ i.wf = true := by
  have hmajor : fieldMajor c = majorVS := by
    by_contra hne
    rw [decode_of_major_ne hne] at h
    cases h
  rw [← assemble_fields hmajor, decode_assemble] at h
  split at h
  · cases h
  next op hop =>
    obtain ⟨hword, hwf⟩ := encode_operandsOf hop (fieldVs1 c) (fieldVd c)
    split at h
    · cases h
    next hrange =>
      obtain rfl := Decoded.command.inj h
      exact ⟨hword.trans (assemble_fields hmajor), hwf.2 hrange⟩

/-- Everything a step can do to the fields the invariant speaks of: it completes the command at `pc` and moves on, or
it reports the exception that the word at `pc` raises. -/
theorem step_next_outcome {s t : State} (h : step s = .next t) :
    ∃ c, s.wordAtPc = some c ∧ t.vgroups = s.vgroups ∧ t.stream = s.stream ∧
      ((t.pc = s.pc + 4 ∧ t.pending = none) ∨
        ∃ e, decode c = .raises e ∧ t.pc = s.pc ∧ t.pending = some ⟨e, c⟩) := by
  obtain ⟨-, c, hc, ⟨i, hi, hexec⟩ | ⟨e, he, rfl⟩⟩ := step_next h
  · refine ⟨c, hc, ?_⟩
    rcases exec_next hexec with ⟨-, -, ⟨v, rfl⟩ | ⟨v, rfl⟩⟩ | ⟨hnwf, -⟩
    · exact ⟨rfl, rfl, .inl ⟨rfl, rfl⟩⟩
    · exact ⟨rfl, rfl, .inl ⟨rfl, rfl⟩⟩
    · simp [(encode_and_wf_of_decode hi).2] at hnwf
  · exact ⟨c, hc, rfl, rfl, .inr ⟨e, he, rfl, rfl⟩⟩

/-- From the offset of a word of a stream of `len` words the counter comes to the offset of a word or to the end, also
where it wraps to 0 (10_state.md R29). -/
theorem pc_add_four_in_stream {pc : BitVec 64} {len : Nat} (haligned : pc.toNat % 4 = 0)
    (hword : pc.toNat / 4 < len) : (pc + 4).toNat % 4 = 0 ∧ (pc + 4).toNat ≤ 4 * len := by
  have hadd : (pc + 4).toNat = (pc.toNat + 4) % 2 ^ 64 := BitVec.toNat_add pc 4
  omega

/-- Settles O11: a step either completes, leaving nothing pending and `pc` at the next word, at the end of the stream or
wrapped to 0, or reports what the word at the unmoved `pc` raises. -/
theorem stepKeepsInvariant : Obligations.StepKeepsInvariant := by
  rintro s t ⟨hvlen, haligned, hend, -⟩ hstep
  obtain ⟨c, hc, hgroups, hstream, hout⟩ := step_next_outcome hstep
  rw [wordAtPc_of_aligned haligned] at hc
  unfold State.Inv
  rw [hgroups, hstream]
  rcases hout with ⟨hpc, hnone⟩ | ⟨e, he, hpc, hsome⟩
  · obtain ⟨hlt, -⟩ := List.getElem?_eq_some_iff.1 hc
    obtain ⟨haligned', hend'⟩ := pc_add_four_in_stream haligned hlt
    rw [hpc, hnone]
    exact ⟨hvlen, haligned', hend', by simp⟩
  · rw [hpc, hsome]
    refine ⟨hvlen, haligned, hend, ?_⟩
    rintro r ⟨⟩
    exact ⟨hc, he⟩

end Sys2Proof.Machine

namespace Sys2Proof.Machine

open Sys2Proof

/-! ### One step, one command: what changes and what stays -/

/-- Settles O1: the word at an aligned `pc` is issued, and issuing it is running the command it decodes to. -/
theorem stepRunsDecodedCommand : Obligations.StepRunsDecodedCommand := by
  intro s c i hnone haligned hword hdecode
  have hc : s.wordAtPc = some c := (wordAtPc_of_aligned haligned).trans hword
  have hissue : issue c s = exec i s := by simp only [issue, hdecode]
  simp [step, runCommand, hnone, hc, hissue]

/-- Settles O12: a command that answers a next state completes, with a value or with a draw, in its frame, or takes the
exception of its immediate, which changes the report alone. -/
theorem completingWritesOnlyDestination : Obligations.CompletingWritesOnlyDestination := by
  intro i s t hexec
  rcases exec_next hexec with ⟨-, -, ⟨v, rfl⟩ | ⟨v, rfl⟩⟩ | ⟨-, rfl⟩
  · exact ⟨fun _ => onlyVdChanged_complete s _ v, fun hpending => absurd rfl hpending⟩
  · exact ⟨fun _ => onlyVdChanged_completeDraw s _ v, fun hpending => absurd rfl hpending⟩
  · exact ⟨fun hpending => by simp at hpending, fun _ => rfl⟩

/-- Settles O14: the step completes and adds 4 modulo `2^64`, a multiple of 4, or reports an exception at the same
`pc`. -/
theorem counterMovesOnOrStays : Obligations.CounterMovesOnOrStays := by
  intro s t haligned hstep
  obtain ⟨c, -, -, -, ⟨hpc, hnone⟩ | ⟨e, -, hpc, hsome⟩⟩ := step_next_outcome hstep
  · have hadd : t.pc.toNat = (s.pc.toNat + 4) % 2 ^ 64 := by rw [hpc]; exact BitVec.toNat_add s.pc 4
    exact ⟨by omega, .inl ⟨hnone, hadd⟩⟩
  · exact ⟨by rwa [hpc], .inr ⟨by rw [hsome]; rfl, hpc⟩⟩

/-! ### The result of a command as a function of its operands -/

/-- The value a command writes, from the values `V`, `M` and `X` of the vector, mask and scalar registers; `none` where
the result is a draw (10_state.md R20; 41_uniform_shift.md R91). `resultBits_of_exec_next` ties it to `exec`. -/
def resultOf {n m : Nat} (V : VIndex → BitVec n) (M : MIndex → BitVec m) (X : XIndex → BitVec 64) :
    Instr → Option (BitVec n)
  | .shli T _ vs1 k => some (mapLanes T (shiftLeft T) (V vs1) k.toNat)
  | .shliZ T _ vs1 k vm => some (selectLanes T (M vm) (mapLanes T (shiftLeft T) (V vs1) k.toNat) 0)
  | .shliM T vd vs1 k vm =>
    some (selectLanes T (M vm) (mapLanes T (shiftLeft T) (V vs1) k.toNat) (V vd))
  | .shlu T _ vs1 rs =>
    if (X rs).toNat < T.width then some (mapLanes T (shiftLeft T) (V vs1) (X rs).toNat) else none
  | .shlv T _ vs1 vs2 => some (zipLanes T (shiftLeft T) (V vs1) (V vs2))
  | .shlvM T vd vs1 vs2 vm =>
    some (selectLanes T (M vm) (zipLanes T (shiftLeft T) (V vs1) (V vs2)) (V vd))
  | .shri T _ vs1 k => some (mapLanes T (shiftRight T) (V vs1) k.toNat)
  | .shriZ T _ vs1 k vm => some (selectLanes T (M vm) (mapLanes T (shiftRight T) (V vs1) k.toNat) 0)
  | .shriM T vd vs1 k vm =>
    some (selectLanes T (M vm) (mapLanes T (shiftRight T) (V vs1) k.toNat) (V vd))
  | .shru T _ vs1 rs =>
    if (X rs).toNat < T.width then some (mapLanes T (shiftRight T) (V vs1) (X rs).toNat) else none
  | .shrv T _ vs1 vs2 => some (zipLanes T (shiftRight T) (V vs1) (V vs2))
  | .shrvM T vd vs1 vs2 vm =>
    some (selectLanes T (M vm) (zipLanes T (shiftRight T) (V vs1) (V vs2)) (V vd))
  | .rshri T _ vs1 k => some (mapLanes T (roundRight T) (V vs1) k.toNat)
  | .rshrv T _ vs1 vs2 => some (zipLanes T (roundRight T) (V vs1) (V vs2))
  | .mshift _ vs1 vs2 => some (rotateExtract (V vs1) (V vs2))

/-- The bits of the result of a command in a state, as a number like those of `State.regBits`. -/
def resultBits (i : Instr) (s : State) : Option Nat :=
  (resultOf s.vreg s.mreg s.xreg i).map BitVec.toNat

/-- A well-formed command whose sources are written completes with the value of `resultOf`, or with a draw where it has
none: `exec_of_ready` with the value named. -/
theorem exec_of_ready_resultOf {i : Instr} {s : State} (hw : i.wf = true) (hr : Ready s i) :
    (∃ v, resultOf s.vreg s.mreg s.xreg i = some v ∧ exec i s = .next (s.complete (destOf i) v)) ∨
    (resultOf s.vreg s.mreg s.xreg i = none ∧
      ∃ v, exec i s = .next (s.completeDraw (destOf i) v)) := by
  cases i <;> simp only [Ready, sourcesOf, List.forall_mem_cons] at hr
  case shlu T _ _ rs | shru T _ _ rs =>
    obtain ⟨h1, hx, -⟩ := hr
    rcases Nat.lt_or_ge (s.xreg rs).toNat T.width with hc | hc
    · exact .inl ⟨_, if_pos hc, uniformForm_completes h1 hx hc⟩
    · exact .inr ⟨if_neg (Nat.not_lt.2 hc), _, uniformForm_draws h1 hx hc⟩
  case shli | shri | rshri =>
    obtain ⟨h1, -⟩ := hr
    exact .inl ⟨_, rfl, constantForm_completes ((immInRange_iff _ _).1 hw) h1⟩
  case shliZ | shriZ =>
    obtain ⟨h1, hm, -⟩ := hr
    exact .inl ⟨_, rfl, zeroingForm_completes ((immInRange_iff _ _).1 hw) h1 hm⟩
  case shliM | shriM =>
    obtain ⟨h1, hm, hd, -⟩ := hr
    exact .inl ⟨_, rfl, mergingForm_completes ((immInRange_iff _ _).1 hw) h1 hm hd⟩
  case shlv | shrv | rshrv =>
    obtain ⟨h1, h2, -⟩ := hr
    exact .inl ⟨_, rfl, variableForm_completes h1 h2⟩
  case shlvM | shrvM =>
    obtain ⟨h1, h2, hm, hd, -⟩ := hr
    exact .inl ⟨_, rfl, variableMergingForm_completes h1 h2 hm hd⟩
  case mshift =>
    obtain ⟨h1, h2, -⟩ := hr
    exact .inl ⟨_, rfl, by simp only [exec, execMshift, withV_written h1, withV_written h2]; rfl⟩

/-- What a well-formed command that answers a next state has left in `vd`: the bits of its result, unless it took a
draw. -/
theorem resultBits_of_exec_next {i : Instr} {s t : State} (hw : i.wf = true)
    (h : exec i s = .next t) :
    resultBits i s = if t.draws = s.draws then some (t.vreg (destOf i)).toNat else none := by
  have hready : Ready s i := by
    rcases exec_next h with ⟨-, hready, -⟩ | ⟨hnwf, -⟩
    · exact hready
    · simp [hw] at hnwf
  rcases exec_of_ready_resultOf hw hready with ⟨v, hv, hexec⟩ | ⟨hnone, v, hexec⟩ <;>
    obtain rfl := Host.Outcome.next.inj (h.symm.trans hexec)
  · have hbits : ((s.complete (destOf i) v).vreg (destOf i)).toNat = v.toNat :=
      congrArg BitVec.toNat (s.vreg_complete_same (destOf i) v)
    rw [if_pos (s.complete_draws _ v), hbits, resultBits, hv]
    rfl
  · rw [if_neg (by simp), resultBits, hnone]
    rfl

/-- Two runs of well-formed commands with the same result leave the same bits in their destinations, where the first
takes no draw. -/
theorem vreg_dest_eq_of_resultBits_eq {i j : Instr} {s s' t t' : State} (hi : i.wf = true)
    (hj : j.wf = true) (h : exec i s = .next t) (h' : exec j s' = .next t')
    (hdraws : t.draws = s.draws) (hres : resultBits i s = resultBits j s') :
    (t.vreg (destOf i)).toNat = (t'.vreg (destOf j)).toNat := by
  rw [resultBits_of_exec_next hi h, resultBits_of_exec_next hj h', if_pos hdraws] at hres
  split at hres
  · exact Option.some.inj hres
  · cases hres

/-- The result reads no register that is not a source of the command (10_state.md R20). -/
theorem resultOf_congr {n m : Nat} {V V' : VIndex → BitVec n} {M M' : MIndex → BitVec m}
    {X X' : XIndex → BitVec 64} {i : Instr} (hV : ∀ r, .v r ∈ sourcesOf i → V r = V' r)
    (hM : ∀ r, .m r ∈ sourcesOf i → M r = M' r) (hX : ∀ r, .x r ∈ sourcesOf i → X r = X' r) :
    resultOf V M X i = resultOf V' M' X' i := by
  cases i with
  | shli | shri | rshri => simp only [resultOf, hV _ (.head _)]
  | shliZ | shriZ => simp only [resultOf, hV _ (.head _), hM _ (.tail _ (.head _))]
  | shliM | shriM =>
    simp only [resultOf, hV _ (.head _), hM _ (.tail _ (.head _)), hV _ (.tail _ (.tail _ (.head _)))]
  | shlu | shru => simp only [resultOf, hV _ (.head _), hX _ (.tail _ (.head _))]
  | shlv | shrv | rshrv | mshift =>
    simp only [resultOf, hV _ (.head _), hV _ (.tail _ (.head _))]
  | shlvM | shrvM =>
    simp only [resultOf, hV _ (.head _), hV _ (.tail _ (.head _)), hM _ (.tail _ (.tail _ (.head _))),
      hV _ (.tail _ (.tail _ (.tail _ (.head _))))]

/-- In states of the same `VLEN` that agree in the sources of a command, its result has the same bits. -/
theorem resultBits_congr {i : Instr} {s s' : State} (hgroups : s.vgroups = s'.vgroups)
    (hsrc : ∀ r ∈ sourcesOf i, s.regBits r = s'.regBits r) : resultBits i s = resultBits i s' := by
  obtain ⟨g, _⟩ := s
  obtain ⟨g', _⟩ := s'
  obtain rfl : g = g' := hgroups
  refine congrArg (Option.map BitVec.toNat) (resultOf_congr ?_ ?_ ?_) <;> intro r hr
  · exact BitVec.eq_of_toNat_eq (hsrc (.v r) hr)
  · exact BitVec.eq_of_toNat_eq (hsrc (.m r) hr)
  · exact BitVec.eq_of_toNat_eq (hsrc (.x r) hr)

/-- Settles O22: the result is a function of the values of the sources alone, so the two states give the same. -/
theorem resultIsFunctionOfOperands : Obligations.ResultIsFunctionOfOperands :=
  fun _ _ _ _ _ hw hgroups hsrc h h' hdraws =>
    vreg_dest_eq_of_resultBits_eq hw hw h h' hdraws (resultBits_congr hgroups hsrc)

/-! ### The same command with another destination -/

@[simp] theorem destOf_withDest (d : VIndex) (i : Instr) : destOf (withDest d i) = d := by
  cases i <;> rfl

@[simp] theorem wf_withDest (d : VIndex) (i : Instr) : (withDest d i).wf = i.wf := by
  cases i <;> rfl

/-- The destination has no part in the result but as the base of a merging command (10_state.md R28). -/
theorem resultOf_withDest {n m : Nat} (V : VIndex → BitVec n) (M : MIndex → BitVec m)
    (X : XIndex → BitVec 64) (d : VIndex) (i : Instr)
    (hbase : isMerging i = true → V d = V (destOf i)) :
    resultOf V M X (withDest d i) = resultOf V M X i := by
  cases i with
  | shliM T vd | shriM T vd | shlvM T vd | shrvM T vd =>
    have hbase' : V d = V vd := hbase rfl
    simp only [withDest, resultOf, hbase']
  | shli | shliZ | shlu | shlv | shri | shriZ | shru | shrv | rshri | rshrv | mshift => rfl

/-- Settles O23: with the base of a merging command held equal, the two commands have the same result in `s`, whatever
registers their destinations are. -/
theorem sourcesReadBeforeDestination : Obligations.SourcesReadBeforeDestination := by
  intro i d s t t' hw hbase h h' hdraws
  have hres : resultBits i s = resultBits (withDest d i) s :=
    congrArg (Option.map BitVec.toNat) (resultOf_withDest s.vreg s.mreg s.xreg d i hbase).symm
  have hwd : (withDest d i).wf = true := (wf_withDest d i).trans hw
  simpa using vreg_dest_eq_of_resultBits_eq hw hwd h h' hdraws hres

end Sys2Proof.Machine

namespace Sys2Proof.Machine

open Sys2Proof

/-! ### Where bytes, lanes and rotation groups lie in a register -/

/-- Inside a field a bit of it is a bit of the register, counted from the field's lowest. -/
theorem slice_getLsbD_of_lt {w n : Nat} (v : BitVec n) (i : Nat) {b : Nat} (hb : b < w) :
    (slice w v i).getLsbD b = v.getLsbD (w * i + b) := by
  rw [slice_getLsbD, decide_eq_true hb, Bool.true_and]

/-- Fields nest: a field of `m` fields of `u` bits has for its field `j` the register's `u`-bit field `m*i + j`. -/
theorem slice_slice {w u m n : Nat} (hw : w = u * m) (v : BitVec n) (i : Nat) {j : Nat} (hj : j < m) :
    slice u (slice w v i) j = slice u v (m * i + j) := by
  subst hw
  apply BitVec.eq_of_getLsbD_eq
  intro b hb
  have hinside : u * j + b < u * m :=
    calc u * j + b < u * (j + 1) := by rw [Nat.mul_succ]; omega
      _ ≤ u * m := Nat.mul_le_mul_left u hj
  have hposition : u * m * i + (u * j + b) = u * (m * i + j) + b := by ring
  rw [slice_getLsbD_of_lt _ _ hb, slice_getLsbD_of_lt _ _ hinside, slice_getLsbD_of_lt _ _ hb, hposition]

/-- A lane is a whole number of bytes (00_scope.md R9). -/
theorem width_eq_bytes (T : LaneType) : T.width = 8 * (T.width / 8) := by cases T <;> rfl

/-- Settles O60: bytes, lanes and rotation groups are all fields of the register, and the bytes of a lane or of a group
are fields nested in it. -/
theorem lanesAreLittleEndianBytes : Obligations.LanesAreLittleEndianBytes := by
  intro n v T
  refine ⟨?bits_of_byte, ?bits_of_lane, ?bytes_of_lane, ?bytes_of_group⟩
  case bits_of_byte => exact fun b k hk => slice_getLsbD_of_lt v b hk
  case bits_of_lane => exact fun i k hk => slice_getLsbD_of_lt v i hk
  case bytes_of_lane => exact fun i j hj => slice_slice (width_eq_bytes T) v i hj
  case bytes_of_group => exact fun g j hj => slice_slice (w := 64) (m := 8) rfl v g hj

end Sys2Proof.Machine

namespace Sys2Proof.Machine

open Sys2Proof

/-! ### The row a word matches -/

/-- The mnemonic of the row of the opcode map that a word matches, if it matches one (30_encoding.md R59). -/
def opOfWord (c : Command) : Option Mnemonic :=
  (opcodeMap.find? fun r => r.accepts c).map OpRow.op

/-- The immediate of a word is out of range: the word takes one, `src = 00`, and it is the lane width or more
(30_encoding.md R60). -/
def ImmTooLarge (c : Command) : Prop :=
  fieldSrc c = 0b00#2 ∧ (laneTypeOf (fieldLt c)).width ≤ (fieldOp2 c).toNat

theorem accepts_iff (r : OpRow) (c : Command) : r.accepts c = true ↔ c &&& r.mask = r.pattern :=
  beq_iff_eq

theorem opOfWord_eq_none_iff (c : Command) :
    opOfWord c = none ↔ ∀ r ∈ opcodeMap, c &&& r.mask ≠ r.pattern := by
  simp only [opOfWord, Option.map_eq_none_iff, List.find?_eq_none, accepts_iff, ne_eq]

theorem exists_row_of_opOfWord {c : Command} {op : Mnemonic} (h : opOfWord c = some op) :
    ∃ r ∈ opcodeMap, c &&& r.mask = r.pattern ∧ r.op = op := by
  obtain ⟨r, hfind, hop⟩ := Option.map_eq_some_iff.1 h
  have haccepts : r.accepts c = true := by simpa using List.find?_some hfind
  exact ⟨r, List.mem_of_find?_eq_some hfind, (accepts_iff r c).1 haccepts, hop⟩

/-- The row a word of the right `major` field matches is the one its fields name. -/
theorem opOfWord_eq_opOfFields {c : Command} (h : fieldMajor c = majorVS) :
    opOfWord c
      = opOfFields (fieldKind c) (fieldSrc c) (fieldPm c) (fieldVm c) (fieldLt c) (fieldOp2 c) := by
  have hfind := find_assemble (fieldKind c) (fieldSrc c) (fieldPm c) (fieldVm c) (fieldLt c)
    (fieldOp2 c) (fieldVs1 c) (fieldVd c)
  rwa [assemble_fields h] at hfind

/-- Every mask of the opcode map covers the fields `major` and `src`; every pattern has the one `major`, and
`src = 00` in the rows that take an immediate (30_encoding.md R59, R60). -/
theorem opcodeMap_major_src : ∀ r ∈ opcodeMap,
    fieldMajor r.mask = BitVec.allOnes 4 ∧ fieldMajor r.pattern = majorVS ∧
    fieldSrc r.mask = BitVec.allOnes 2 ∧
    (fieldSrc r.pattern = 0b00#2 ↔ takesImmediate r.op = true) := by decide

theorem fieldMajor_of_match {c : Command} {r : OpRow} (hr : r ∈ opcodeMap)
    (hmatch : c &&& r.mask = r.pattern) : fieldMajor c = majorVS := by
  obtain ⟨hmask, hpattern, -, -⟩ := opcodeMap_major_src r hr
  calc fieldMajor c
    _ = fieldMajor c &&& fieldMajor r.mask := by rw [hmask, BitVec.and_allOnes]
    _ = fieldMajor (c &&& r.mask) := (BitVec.extractLsb'_and ..).symm
    _ = majorVS := by rw [hmatch, hpattern]

/-- A word that matches a row has `src = 00` exactly if the row takes an immediate. -/
theorem fieldSrc_eq_zero_iff_of_match {c : Command} {r : OpRow} (hr : r ∈ opcodeMap)
    (hmatch : c &&& r.mask = r.pattern) : fieldSrc c = 0b00#2 ↔ takesImmediate r.op = true := by
  obtain ⟨-, -, hmask, hpattern⟩ := opcodeMap_major_src r hr
  have hsrc : fieldSrc c = fieldSrc r.pattern :=
    calc fieldSrc c
      _ = fieldSrc c &&& fieldSrc r.mask := by rw [hmask, BitVec.and_allOnes]
      _ = fieldSrc (c &&& r.mask) := (BitVec.extractLsb'_and ..).symm
      _ = fieldSrc r.pattern := by rw [hmatch]
  rw [hsrc, hpattern]

/-! ### What the decoder answers, by the row of the word (30_encoding.md R63) -/

theorem decode_of_opOfWord_none {c : Command} (h : opOfWord c = none) :
    decode c = .raises .illegalCommand := by
  have hfind := Option.map_eq_none_iff.1 h
  simp only [decode, hfind, ite_self]

theorem decode_of_immTooLarge {c : Command} {op : Mnemonic} (h : opOfWord c = some op)
    (himm : ImmTooLarge c) : decode c = .raises .immOutOfRange := by
  obtain ⟨r, hr, hmatch, -⟩ := exists_row_of_opOfWord h
  obtain ⟨r', hfind, -⟩ := Option.map_eq_some_iff.1 h
  simp only [decode, if_pos (fieldMajor_of_match hr hmatch), hfind]
  exact if_pos himm

theorem decode_of_not_immTooLarge {c : Command} {op : Mnemonic} (h : opOfWord c = some op)
    (himm : ¬ ImmTooLarge c) : decode c = .command (operandsOf op c) := by
  obtain ⟨r, hr, hmatch, -⟩ := exists_row_of_opOfWord h
  obtain ⟨r', hfind, rfl⟩ := Option.map_eq_some_iff.1 h
  simp only [decode, if_pos (fieldMajor_of_match hr hmatch), hfind]
  exact if_neg himm

/-- The decoder raises `ILLEGAL_COMMAND` for a word that matches no row and for no other. -/
theorem decode_illegalCommand_iff (c : Command) :
    decode c = .raises .illegalCommand ↔ opOfWord c = none := by
  refine ⟨fun hdecode => ?_, decode_of_opOfWord_none⟩
  cases hop : opOfWord c with
  | none => rfl
  | some op =>
    by_cases himm : ImmTooLarge c
    · cases hdecode.symm.trans (decode_of_immTooLarge hop himm)
    · cases hdecode.symm.trans (decode_of_not_immTooLarge hop himm)

/-- The decoder raises `IMM_OUT_OF_RANGE` for a word that matches a row and has its immediate out of range, and for no
other. -/
theorem decode_immOutOfRange_iff (c : Command) :
    decode c = .raises .immOutOfRange ↔ opOfWord c ≠ none ∧ ImmTooLarge c := by
  cases hop : opOfWord c with
  | none => simp [decode_of_opOfWord_none hop]
  | some op =>
    by_cases himm : ImmTooLarge c
    · simp [decode_of_immTooLarge hop himm, himm]
    · simp [decode_of_not_immTooLarge hop himm, himm]

/-! ### The word of a command -/

/-- The word of a command matches the row of its mnemonic. -/
theorem opOfWord_encode (i : Instr) : opOfWord (encode i) = some (mnemonicOf i) := by
  cases i with
  | shli | shliZ | shliM | shri | shriZ | shriM | rshri =>
    exact (find_assemble ..).trans (by simp [opOfFields, mnemonicOf])
  | shlu | shlv | shlvM | shru | shrv | shrvM | rshrv | mshift =>
    exact (find_assemble ..).trans (by simp [opOfFields, mnemonicOf, op2OfReg_high])

/-- The fields of a command's word are its operands. -/
theorem operandsOf_encode (i : Instr) : operandsOf (mnemonicOf i) (encode i) = i := by
  cases i <;> simp [operandsOf, mnemonicOf, encode]

/-- Only an immediate can make a command ill formed. -/
theorem immTooLarge_encode_iff (i : Instr) : ImmTooLarge (encode i) ↔ i.wf = false := by
  cases i <;> simp [ImmTooLarge, encode, Instr.wf, immInRange]

/-- Settles O3: the word matches the row of its command, its fields are the command's operands, and its immediate is out
of range exactly if the command is ill formed. -/
theorem decodeOfEncode : Obligations.DecodeOfEncode := by
  intro i
  have hop := opOfWord_encode i
  cases hwf : i.wf with
  | false => exact decode_of_immTooLarge hop ((immTooLarge_encode_iff i).2 hwf)
  | true =>
    have himm : ¬ ImmTooLarge (encode i) := by simp [immTooLarge_encode_iff, hwf]
    exact (decode_of_not_immTooLarge hop himm).trans (congrArg _ (operandsOf_encode i))

/-- Settles O4: a word is assembled from its fields, and each field of a word that matches a row is an operand of its
command or fixed by the row. -/
theorem encodeOfDecode : Obligations.EncodeOfDecode := fun _ _ hdecode => encode_and_wf_of_decode hdecode

/-! ### The words that raise an exception -/

theorem bitVec2_cases (x : BitVec 2) : x = 0b00#2 ∨ x = 0b01#2 ∨ x = 0b10#2 ∨ x = 0b11#2 := by
  revert x; decide

theorem and_32_eq_zero_iff (o : BitVec 6) : o &&& 0b100000#6 = 0 ↔ o.getLsbD 5 = false := by
  revert o; decide

/-- The fields name no row exactly in the reserved combinations of 30_encoding.md R62. -/
theorem opOfFields_eq_none_iff (kind src pm : BitVec 2) (vm : MIndex) (lt : BitVec 3) (op2 : BitVec 6) :
    opOfFields kind src pm vm lt op2 = none ↔
      src = 0b11#2 ∨
      pm = 0b11#2 ∨
      (pm = 0b01#2 ∧ src ≠ 0b00#2) ∨
      (pm ≠ 0b00#2 ∧ src = 0b01#2) ∨
      (pm ≠ 0b00#2 ∧ (kind = 0b10#2 ∨ kind = 0b11#2)) ∨
      (kind = 0b10#2 ∧ src = 0b01#2) ∨
      (kind = 0b11#2 ∧ src ≠ 0b10#2) ∨
      (vm ≠ 0b000#3 ∧ pm = 0b00#2) ∨
      (op2.getLsbD 5 = true ∧ src ≠ 0b00#2) ∨
      (kind = 0b11#2 ∧ lt ≠ 0b011#3) := by
  simp only [opOfFields, and_32_eq_zero_iff]
  obtain rfl | rfl | rfl | rfl := bitVec2_cases pm
  · -- unpredicated: the rows also hold `vm` at 0
    obtain rfl | rfl | rfl | rfl := bitVec2_cases kind <;>
      obtain rfl | rfl | rfl | rfl := bitVec2_cases src <;> simp [imp_iff_not_or, or_comm]
  · -- zeroing: an immediate only
    obtain rfl | rfl | rfl | rfl := bitVec2_cases kind <;> by_cases hsrc : src = 0b00#2 <;> simp [hsrc]
  · -- merging: an immediate or a count register
    obtain rfl | rfl | rfl | rfl := bitVec2_cases kind <;>
      obtain rfl | rfl | rfl | rfl := bitVec2_cases src <;> simp
  · -- the reserved value of `pm`
    simp

/-- Settles O5: a word that matches no row has another `major` field or fields that name no row. -/
theorem illegalWordsExactly : Obligations.IllegalWordsExactly := by
  intro c
  rw [decode_illegalCommand_iff]
  refine ⟨opOfWord_eq_none_iff c, ?_⟩
  by_cases hmajor : fieldMajor c = majorVS
  · rw [opOfWord_eq_opOfFields hmajor, opOfFields_eq_none_iff]
    exact (or_iff_right (not_not.2 hmajor)).symm
  · exact iff_of_true ((decode_illegalCommand_iff c).1 (decode_of_major_ne hmajor)) (.inl hmajor)

/-- Settles O6: among the words that match a row, those with `src = 00` match a row that takes an immediate. -/
theorem immediateRangeAtDecode : Obligations.ImmediateRangeAtDecode := by
  intro c
  rw [decode_immOutOfRange_iff, decode_illegalCommand_iff]
  have hnone := opOfWord_eq_none_iff c
  refine ⟨⟨?_, ?_⟩, hnone.2⟩
  · rintro ⟨hrow, hsrc, hrange⟩
    obtain ⟨op, hop⟩ := Option.ne_none_iff_exists'.1 hrow
    obtain ⟨r, hr, hmatch, -⟩ := exists_row_of_opOfWord hop
    exact ⟨⟨r, hr, hmatch, (fieldSrc_eq_zero_iff_of_match hr hmatch).1 hsrc⟩, hrange⟩
  · rintro ⟨⟨r, hr, hmatch, himm⟩, hrange⟩
    exact ⟨fun h => hnone.1 h r hr hmatch, (fieldSrc_eq_zero_iff_of_match hr hmatch).2 himm, hrange⟩

/-- Settles O21: the word of the command raises the exception at decode that the command itself takes. -/
theorem outOfRangeImmediateTakesException : Obligations.OutOfRangeImmediateTakesException := by
  intro i s hwf
  have hdecode : decode (encode i) = .raises .immOutOfRange := by
    simpa [hwf] using decodeOfEncode i
  have hexec := exec_of_not_wf hwf s
  have hissue : issue (encode i) s = .next (s.raise .immOutOfRange (encode i)) := by
    simp only [issue, hdecode]
  exact ⟨hdecode, hexec, hissue.trans hexec.symm⟩

/-- Settles O7: the decoder evaluated on each word. -/
theorem specWordsDecode : Obligations.SpecWordsDecode := by
  unfold Obligations.SpecWordsDecode
  decide

/-! ### The shift by zero -/

@[simp] theorem shiftLeft_zero (T : LaneType) (x : BitVec T.width) : shiftLeft T x 0 = x := by
  simp [shiftLeft]

/-- A register each of whose lanes is left as it is stays the same register. -/
theorem mapLanes_eq_self (T : LaneType) {g : Nat} {op : BitVec T.width → Nat → BitVec T.width} {k : Nat}
    (hop : ∀ x, op x k = x) (a : BitVec (64 * g)) : mapLanes T op a k = a :=
  eq_of_lane_eq T fun _ hi => (lane_mapLanes T op a k hi).trans (hop _)

/-- Settles O59: the command completes with every lane shifted by 0, which is the register itself. -/
theorem shiftByZeroCopies : Obligations.ShiftByZeroCopies := by
  intro T vd vs s hwritten
  have hexec : exec (.shli T vd vs 0) s = .next (s.complete vd (s.vreg vs)) :=
    calc exec (.shli T vd vs 0) s
      _ = .next (s.complete vd (mapLanes T (shiftLeft T) (s.vreg vs) 0)) :=
        constantForm_completes (width_pos T) hwritten
      _ = .next (s.complete vd (s.vreg vs)) := by rw [mapLanes_eq_self T (shiftLeft_zero T)]
  exact ⟨_, hexec, completesIn_complete s vd _, congrArg BitVec.toNat (s.vreg_complete_same vd _)⟩

end Sys2Proof.Machine

namespace Sys2Proof.Machine

open Sys2Proof

/-! ### SHLI and SHRI on the machine (40_constant_shift.md R83, R84, R88) -/

/-- A constant-amount command with its amount in range and its data written completes, each lane of the data under
`op`. -/
theorem constantForm_lanes {c : Instr} {T : LaneType} {op : BitVec T.width → Nat → BitVec T.width}
    {vd vs1 : VIndex} {k : BitVec 6} {s : State} (hk : k.toNat < T.width)
    (h1 : s.written (.v vs1) = true) :
    ∃ t, constantForm c T op vd vs1 k s = .next t ∧ CompletesIn s t vd ∧
      ∀ i < laneCount T s.vlen, lane T (t.vreg vd) i = op (lane T (s.vreg vs1) i) k.toNat :=
  ⟨_, constantForm_completes hk h1, completesIn_complete s vd _, fun i hi =>
    (lane_vreg_complete T s vd _ i).trans (lane_mapLanes T op _ _ hi)⟩

/-- Settles O24: SHLI is the constant-amount form with `SHL_w`. -/
theorem shliResult : Obligations.ShliResult := fun _ _ _ _ _ => constantForm_lanes

/-- Settles O25: SHRI is the constant-amount form with `SHR_T`. -/
theorem shriResult : Obligations.ShriResult := fun _ _ _ _ _ => constantForm_lanes

/-- Where a constant-amount command with its amount in range answers a next state, its data was written, and each lane
of `vd` is the data lane under `op`. -/
theorem lane_of_constantForm_next {c : Instr} {T : LaneType}
    {op : BitVec T.width → Nat → BitVec T.width} {vd vs1 : VIndex} {k : BitVec 6} {s t : State} {i : Nat}
    (hk : k.toNat < T.width) (h : constantForm c T op vd vs1 k s = .next t)
    (hi : i < laneCount T s.vlen) : lane T (t.vreg vd) i = op (lane T (s.vreg vs1) i) k.toNat := by
  cases h1 : s.written (.v vs1) with
  | false =>
    rw [constantForm, withImm_inRange ((immInRange_iff T k).2 hk), withV_unwritten h1] at h
    cases h
  | true =>
    obtain ⟨t', ht', -, hlanes⟩ := constantForm_lanes (c := c) (op := op) (vd := vd) hk h1
    obtain rfl := Host.Outcome.next.inj (h.symm.trans ht')
    exact hlanes i hi

/-- Settles O45: in both runs lane `i` of the result is the same function of lane `i` of the data and of `k`. -/
theorem constantShiftLanesIndependent : Obligations.ConstantShiftLanesIndependent := by
  rintro op T vd vs1 vd' vs1' k s s' t t' i (rfl | rfl) hk h h' hi hi' hdata
  · rw [lane_of_constantForm_next hk h hi, lane_of_constantForm_next hk h' hi', hdata]
  · rw [lane_of_constantForm_next hk h hi, lane_of_constantForm_next hk h' hi', hdata]

/-! ### The lane primitives as shifts of bit vectors (40_constant_shift.md R80, R81) -/

theorem shiftLeft_eq (T : LaneType) (x : BitVec T.width) (k : Nat) : shiftLeft T x k = x <<< k := by
  apply BitVec.eq_of_toNat_eq
  rw [shiftLeft, BitVec.toNat_ofNat, BitVec.toNat_shiftLeft, Nat.shiftLeft_eq]

/-- Logical fill. -/
theorem shiftRight_eq_of_unsigned {T : LaneType} (hT : T.signed = false) (x : BitVec T.width) (k : Nat) :
    shiftRight T x k = x >>> k := by
  apply laneValue_inj
  rw [laneValue_shiftRight, laneValue_unsigned hT, laneValue_unsigned hT, BitVec.toNat_ushiftRight,
    Nat.shiftRight_eq_div_pow]
  push_cast
  rfl

/-- Arithmetic fill. -/
theorem shiftRight_eq_of_signed {T : LaneType} (hT : T.signed = true) (x : BitVec T.width) (k : Nat) :
    shiftRight T x k = x.sshiftRight k := by
  apply laneValue_inj
  rw [laneValue_shiftRight, laneValue_signed hT, laneValue_signed hT, BitVec.toInt_sshiftRight,
    Int.shiftRight_eq_div_pow]
  push_cast
  rfl

@[simp] theorem shiftRight_zero (T : LaneType) (x : BitVec T.width) : shiftRight T x 0 = x :=
  laneValue_inj (by simp [laneValue_shiftRight])

theorem getLsbD_shiftLeft (T : LaneType) (x : BitVec T.width) (k : Nat) {b : Nat} (hb : b < T.width) :
    (shiftLeft T x k).getLsbD b = (decide (k ≤ b) && x.getLsbD (b - k)) := by
  rw [shiftLeft_eq, BitVec.getLsbD_shiftLeft]
  simp only [hb, decide_true, Bool.true_and, ← decide_not, Nat.not_lt]

/-- The bits of a right shift: those of the lane from `k` on, then the type's fill. -/
theorem getLsbD_shiftRight (T : LaneType) (x : BitVec T.width) (k : Nat) {b : Nat} (hb : b < T.width) :
    (shiftRight T x k).getLsbD b =
      if b + k < T.width then x.getLsbD (b + k) else (T.signed && x.getLsbD (T.width - 1)) := by
  cases hT : T.signed with
  | false =>
    rw [shiftRight_eq_of_unsigned hT, BitVec.getLsbD_ushiftRight, Nat.add_comm k b]
    split_ifs with h
    · rfl
    · rw [BitVec.getLsbD_of_ge _ _ (Nat.not_lt.1 h), Bool.false_and]
  | true =>
    rw [shiftRight_eq_of_signed hT, BitVec.getLsbD_sshiftRight, Nat.add_comm k b,
      BitVec.msb_eq_getLsbD_last]
    simp [hb]

/-- Settles O40: the value is the definition's own, the bits are those of a shift of bit vectors. -/
theorem shiftLeftLaneRule : Obligations.ShiftLeftLaneRule := fun T x k _ =>
  ⟨BitVec.toNat_ofNat _ _, fun _ hb => getLsbD_shiftLeft T x k hb, shiftLeft_zero T x⟩

/-- Settles O41: the two value clauses are the value of a right shift, read for each kind of type. -/
theorem shiftRightLaneRule : Obligations.ShiftRightLaneRule := by
  intro T x k _
  have hvalue := laneValue_shiftRight T x k
  refine ⟨fun hT => ?unsigned, fun hT => ?signed, fun _ hb => getLsbD_shiftRight T x k hb,
    shiftRight_zero T x⟩
  case unsigned =>
    rw [laneValue_unsigned hT, laneValue_unsigned hT] at hvalue
    exact_mod_cast hvalue
  case signed => rwa [laneValue_signed hT, laneValue_signed hT] at hvalue

/-! ### The laws of the lane primitives (40_constant_shift.md R85 to R87) -/

/-- The one bit of an unsigned lane that a right shift by `w - 1` leaves. -/
theorem toNat_shiftRight_last {T : LaneType} (hT : T.signed = false) (x : BitVec T.width) :
    (shiftRight T x (T.width - 1)).toNat = (x.getLsbD (T.width - 1)).toNat := by
  have hx : x.toNat / 2 ^ (T.width - 1) < 2 :=
    Nat.div_lt_of_lt_mul ((Nat.two_pow_pred_mul_two (width_pos T)).symm ▸ x.isLt)
  rw [shiftRight_eq_of_unsigned hT, BitVec.toNat_ushiftRight, Nat.shiftRight_eq_div_pow, BitVec.getLsbD,
    Nat.toNat_testBit, Nat.mod_eq_of_lt hx]

/-- Every bit of a signed lane after a right shift by `w - 1` is the top bit. -/
theorem shiftRight_last_of_signed {T : LaneType} (hT : T.signed = true) (x : BitVec T.width) :
    shiftRight T x (T.width - 1) =
      if x.getLsbD (T.width - 1) then BitVec.allOnes T.width else 0 := by
  apply BitVec.eq_of_getLsbD_eq
  intro b hb
  have hbit : (shiftRight T x (T.width - 1)).getLsbD b = x.getLsbD (T.width - 1) := by
    rw [getLsbD_shiftRight T x _ hb, hT, Bool.true_and]
    split_ifs with h
    · rw [show b = 0 by omega, Nat.zero_add]
    · rfl
  rw [hbit]
  split_ifs with htop
  · rw [htop, BitVec.getLsbD_allOnes, decide_eq_true hb]
  · simp [htop]

/-- Settles O42, from the identities at 0 and the right shift by `w - 1` for each kind of type. -/
theorem shiftIdentityAndExtremes : Obligations.ShiftIdentityAndExtremes := fun T x =>
  ⟨shiftLeft_zero T x, shiftRight_zero T x, fun hT => toNat_shiftRight_last hT x,
    fun hT => shiftRight_last_of_signed hT x⟩

/-- Settles O43, bit by bit: bit `b` goes up to `b + k` and comes back if that is still in the lane, and the mask keeps
the same bits. -/
theorem leftThenRightKeepsLowBits : Obligations.LeftThenRightKeepsLowBits := by
  intro T x k hT hk
  apply BitVec.eq_of_getLsbD_eq
  intro b hb
  rw [getLsbD_shiftRight T _ k hb, BitVec.getLsbD_and, BitVec.getLsbD_ofNat,
    Nat.testBit_two_pow_sub_one, hT]
  split_ifs with h
  · have hmask : b < T.width - k := by omega
    rw [getLsbD_shiftLeft T x k h]
    simp [hb, hmask]
  · have hmask : ¬ b < T.width - k := by omega
    simp [hmask]

/-- Settles O44: left shifts compose as shifts of bit vectors, right shifts as floors of quotients, whatever the fill. -/
theorem shiftsComposeAdditively : Obligations.ShiftsComposeAdditively := by
  intro T x a b _
  refine ⟨?left, laneValue_inj ?right⟩
  case left => rw [shiftLeft_eq, shiftLeft_eq, shiftLeft_eq, BitVec.shiftLeft_add]
  case right =>
    calc laneValue T (shiftRight T (shiftRight T x a) b)
      _ = laneValue T x / 2 ^ a / 2 ^ b := by rw [laneValue_shiftRight, laneValue_shiftRight]
      _ = laneValue T x / 2 ^ (a + b) := by rw [Int.ediv_ediv_of_nonneg (by positivity), pow_add]
      _ = laneValue T (shiftRight T x (a + b)) := (laneValue_shiftRight T x (a + b)).symm

end Sys2Proof.Machine

namespace Sys2Proof.Machine

open Sys2Proof

/-! ### SHLU and SHRU on the machine (41_uniform_shift.md R90 to R93) -/

/-- A runtime-uniform command with its data and its count written and the count in range completes, each lane of the
data under `op` with the whole 64-bit count. -/
theorem uniformForm_lanes {c : Instr} {T : LaneType} {op : BitVec T.width → Nat → BitVec T.width}
    {vd vs1 : VIndex} {rs : XIndex} {s : State} (h1 : s.written (.v vs1) = true)
    (hx : s.written (.x rs) = true) (hc : (s.xreg rs).toNat < T.width) :
    ∃ t, uniformForm c T op vd vs1 rs s = .next t ∧ CompletesIn s t vd ∧
      ∀ i < laneCount T s.vlen, lane T (t.vreg vd) i = op (lane T (s.vreg vs1) i) (s.xreg rs).toNat :=
  ⟨_, uniformForm_completes h1 hx hc, completesIn_complete s vd _, fun i hi =>
    (lane_vreg_complete T s vd _ i).trans (lane_mapLanes T op _ _ hi)⟩

/-- Settles O26: SHLU is the runtime-uniform form with `SHL_w`. -/
theorem shluResult : Obligations.ShluResult := fun _ _ _ _ _ => uniformForm_lanes

/-- Settles O27: SHRU is the runtime-uniform form with `SHR_T`. -/
theorem shruResult : Obligations.ShruResult := fun _ _ _ _ _ => uniformForm_lanes

/-- A runtime-uniform command with its data and its count written and the count out of range completes with the draw of
this execution in `vd`, whatever `op` is. -/
theorem uniformForm_next_draw {c : Instr} {T : LaneType} {op : BitVec T.width → Nat → BitVec T.width}
    {vd vs1 : VIndex} {rs : XIndex} {s : State} (h1 : s.written (.v vs1) = true)
    (hx : s.written (.x rs) = true) (hc : T.width ≤ (s.xreg rs).toNat) :
    ∃ t, uniformForm c T op vd vs1 rs s = .next t ∧ OnlyVdChanged s t vd ∧ t.pc = s.pc + 4 ∧
      t.pending = none ∧ t.draws = s.draws + 1 ∧
      (t.vreg vd).toNat = (s.draw c (s.vreg vs1) (s.xreg rs)).toNat :=
  ⟨_, uniformForm_draws h1 hx hc, onlyVdChanged_completeDraw s vd _, rfl, rfl, rfl,
    congrArg BitVec.toNat (s.vreg_completeDraw_same vd _)⟩

/-- Settles O28: both commands are the runtime-uniform form, which does not use its lane operation here. -/
theorem outOfRangeUniformCountDraws : Obligations.OutOfRangeUniformCountDraws := by
  rintro T vd vs1 rs i s (rfl | rfl) h1 hx hc
  · exact uniformForm_next_draw h1 hx hc
  · exact uniformForm_next_draw h1 hx hc

end Sys2Proof.Machine

namespace Sys2Proof.Machine

open Sys2Proof

/-! ### The effective count (42_variable_shift.md R95) -/

theorem two_pow_log2Width (T : LaneType) : 2 ^ T.log2Width = T.width := by cases T <;> rfl

/-- The two readings of a count differ by a multiple of `2^w`, hence of `w`. -/
theorem toInt_emod_width (T : LaneType) (s : BitVec T.width) :
    s.toInt % (T.width : Int) = (s.toNat : Int) % (T.width : Int) := by
  have hdvd : (T.width : Int) ∣ ((2 ^ T.width : Nat) : Int) := by cases T <;> decide
  calc s.toInt % (T.width : Int)
    _ = s.toInt % ((2 ^ T.width : Nat) : Int) % (T.width : Int) := (Int.emod_emod_of_dvd _ hdvd).symm
    _ = (s.toNat : Int) % ((2 ^ T.width : Nat) : Int) % (T.width : Int) := by
      rw [BitVec.toInt_eq_toNat_bmod, Int.bmod_emod]
    _ = (s.toNat : Int) % (T.width : Int) := Int.emod_emod_of_dvd _ hdvd

/-- Settles O46: the count modulo the width, for the unsigned value and so for the signed one. -/
theorem effectiveCountIsModWidth : Obligations.EffectiveCountIsModWidth := by
  intro T s
  have hsigned : (laneAmount T s : Int) = s.toInt % (T.width : Int) := by
    rw [laneAmount_eq_mod, toInt_emod_width, Int.natCast_emod]
  exact ⟨rfl, laneAmount_eq_mod T s, hsigned, laneAmount_lt T s, two_pow_log2Width T⟩

/-! ### SHLV and SHRV on the machine (42_variable_shift.md R96, R97, R100) -/

/-- A per-lane variable command with its data and its counts written completes, each lane of the data under `op` with
its own count modulo the width. -/
theorem variableForm_lanes {c : Instr} {T : LaneType} {op : BitVec T.width → Nat → BitVec T.width}
    {vd vs1 vs2 : VIndex} {s : State} (h1 : s.written (.v vs1) = true)
    (h2 : s.written (.v vs2) = true) :
    ∃ t, variableForm c T op vd vs1 vs2 s = .next t ∧ CompletesIn s t vd ∧
      ∀ i < laneCount T s.vlen, lane T (t.vreg vd) i =
        op (lane T (s.vreg vs1) i) ((lane T (s.vreg vs2) i).toNat % T.width) := by
  refine ⟨_, variableForm_completes h1 h2, completesIn_complete s vd _, fun i hi => ?_⟩
  rw [lane_vreg_complete, lane_zipLanes T op _ _ hi, laneAmount_eq_mod]

/-- Settles O29: SHLV is the per-lane variable form with `SHL_w`. -/
theorem shlvResult : Obligations.ShlvResult := fun _ _ _ _ _ => variableForm_lanes

/-- Settles O30: SHRV is the per-lane variable form with `SHR_T`. -/
theorem shrvResult : Obligations.ShrvResult := fun _ _ _ _ _ => variableForm_lanes

/-- Where a per-lane variable command answers a next state, it has read both sources. -/
theorem written_of_variableForm_next {c : Instr} {T : LaneType}
    {op : BitVec T.width → Nat → BitVec T.width} {vd vs1 vs2 : VIndex} {s t : State}
    (h : variableForm c T op vd vs1 vs2 s = .next t) :
    s.written (.v vs1) = true ∧ s.written (.v vs2) = true := by
  cases h1 : s.written (.v vs1) with
  | false =>
    rw [variableForm, withV_unwritten h1] at h
    cases h
  | true =>
    cases h2 : s.written (.v vs2) with
    | false =>
      rw [variableForm, withV_written h1, withV_unwritten h2] at h
      cases h
    | true => exact ⟨rfl, rfl⟩

/-- Where a per-lane variable command answers a next state, each lane of `vd` is the data lane under `op` with its own
count modulo the width. -/
theorem lane_of_variableForm_next {c : Instr} {T : LaneType}
    {op : BitVec T.width → Nat → BitVec T.width} {vd vs1 vs2 : VIndex} {s t : State} {i : Nat}
    (h : variableForm c T op vd vs1 vs2 s = .next t) (hi : i < laneCount T s.vlen) :
    lane T (t.vreg vd) i =
      op (lane T (s.vreg vs1) i) ((lane T (s.vreg vs2) i).toNat % T.width) := by
  obtain ⟨h1, h2⟩ := written_of_variableForm_next h
  obtain ⟨t', ht', -, hlanes⟩ := variableForm_lanes (c := c) (op := op) (vd := vd) h1 h2
  obtain rfl := Host.Outcome.next.inj (h.symm.trans ht')
  exact hlanes i hi

/-- Settles O49: in both runs lane `i` of the result is the same function of lane `i` of the data and of the counts. -/
theorem variableShiftLanesIndependent : Obligations.VariableShiftLanesIndependent := by
  rintro op T vd vs1 vs2 vd' vs1' vs2' s s' t t' i (rfl | rfl) h h' hi hi' hdata hcount
  · rw [lane_of_variableForm_next h hi, lane_of_variableForm_next h' hi', hdata, hcount]
  · rw [lane_of_variableForm_next h hi, lane_of_variableForm_next h' hi', hdata, hcount]

/-! ### The staged shifter (42_variable_shift.md R98) -/

/-- The first `b` stages of a lane operation whose shifts compose additively shift by the low `b` bits of the count. -/
theorem stagedShift_eq {T : LaneType} {op : BitVec T.width → Nat → BitVec T.width}
    (hzero : ∀ x, op x 0 = x) (hadd : ∀ x a b, a + b < T.width → op (op x a) b = op x (a + b))
    (x count : BitVec T.width) {b : Nat} (hb : b ≤ T.log2Width) :
    stagedShift T op x count b = op x (count.toNat % 2 ^ b) := by
  induction b with
  | zero => rw [stagedShift, pow_zero, Nat.mod_one, hzero]
  | succ b ih =>
    have hlow : count.toNat % 2 ^ (b + 1) = count.toNat % 2 ^ b + 2 ^ b * (count.getLsbD b).toNat := by
      rw [BitVec.getLsbD, Nat.toNat_testBit, Nat.mod_pow_succ]
    rw [stagedShift, ih (Nat.le_of_succ_le hb)]
    split_ifs with hbit
    · rw [hbit, Bool.toNat_true, Nat.mul_one] at hlow
      have hfits : count.toNat % 2 ^ b + 2 ^ b < T.width :=
        calc count.toNat % 2 ^ b + 2 ^ b
          _ = count.toNat % 2 ^ (b + 1) := hlow.symm
          _ < 2 ^ (b + 1) := Nat.mod_lt _ (by positivity)
          _ ≤ 2 ^ T.log2Width := Nat.pow_le_pow_right (by decide) hb
          _ = T.width := two_pow_log2Width T
      rw [hadd _ _ _ hfits, hlow]
    · rw [Bool.eq_false_iff.2 hbit, Bool.toNat_false, Nat.mul_zero] at hlow
      rw [hlow, Nat.add_zero]

/-- Settles O47: both shifts compose additively, and `log2(w)` stages use all bits of the effective count. -/
theorem stagedShiftIsTheShift : Obligations.StagedShiftIsTheShift := by
  intro T x count
  have hcount : laneAmount T count = count.toNat % 2 ^ T.log2Width := by
    rw [laneAmount_eq_mod, two_pow_log2Width]
  rw [hcount]
  constructor
  case left =>
    exact stagedShift_eq (shiftLeft_zero T) (fun y a b h => (shiftsComposeAdditively T y a b h).1) x
      count le_rfl
  case right =>
    exact stagedShift_eq (shiftRight_zero T) (fun y a b h => (shiftsComposeAdditively T y a b h).2) x
      count le_rfl

/-! ### SHLV then SHRV by the same counts (42_variable_shift.md R99) -/

/-- A lane depends only on the register's bits, whatever the `VLEN`. -/
theorem lane_eq_of_toNat_eq (T : LaneType) {n m : Nat} {a : BitVec n} {b : BitVec m}
    (h : a.toNat = b.toNat) (i : Nat) : lane T a i = lane T b i := by
  apply BitVec.eq_of_toNat_eq
  simp only [lane, slice, BitVec.extractLsb'_toNat, h]

/-- Settles O48: SHRV reads SHLV's result and the counts SHLV left alone, and each lane is the law of the two lane
primitives. -/
theorem variableLeftThenRightKeepsLowBits : Obligations.VariableLeftThenRightKeepsLowBits := by
  intro T vd vd' vs1 vs2 s hT hne h1 h2
  obtain ⟨t, ht, ⟨⟨hgroups, hregs, -, -, hwritten, -⟩, -⟩, hleft⟩ :=
    variableForm_lanes (c := .shlv T vd vs1 vs2) (op := shiftLeft T) (vd := vd) h1 h2
  have hdata : t.written (.v vd) = true := by rw [hwritten, beq_self_eq_true, Bool.or_true]
  have hcounts : t.written (.v vs2) = true := by rw [hwritten, h2, Bool.true_or]
  obtain ⟨u, hu, -, hright⟩ :=
    variableForm_lanes (c := .shrv T vd' vd vs2) (op := shiftRight T) (vd := vd') hdata hcounts
  refine ⟨t, u, ht, hu, fun i hi k hk => ?_⟩
  have hcount : lane T (t.vreg vs2) i = lane T (s.vreg vs2) i :=
    lane_eq_of_toNat_eq T (hregs vs2 hne.symm) i
  have hi' : i < laneCount T t.vlen := by rwa [State.vlen, hgroups]
  have hkw : k < T.width := hk ▸ Nat.mod_lt _ (width_pos T)
  rw [hright i hi', hcount, hleft i hi, ← hk]
  exact leftThenRightKeepsLowBits T _ k hT hkw

end Sys2Proof.Machine

namespace Sys2Proof.Machine

open Sys2Proof

/-! ### RSHRI and RSHRV on the machine (43_rounding_shift.md R105, R107, R108) -/

/-- The rounding shift on the lane's own value: the truncated quotient plus the half bit, the identity for `k = 0`. -/
theorem roundRight_eq_ite (T : LaneType) (x : BitVec T.width) (k : Nat) :
    roundRight T x k =
      if k = 0 then x
      else BitVec.ofInt T.width (laneValue T x / 2 ^ k + ((x.getLsbD (k - 1)).toNat : Int)) := by
  rw [roundRight, laneValue_shiftRight]

/-- Settles O31: RSHRI is the constant-amount form with `RND_T`. -/
theorem rshriResult : Obligations.RshriResult := by
  intro T vd vs1 k s hk h1
  obtain ⟨t, ht, hcompletes, hlanes⟩ :=
    constantForm_lanes (c := .rshri T vd vs1 k) (op := roundRight T) (vd := vd) hk h1
  exact ⟨t, ht, hcompletes, fun i hi => (hlanes i hi).trans (roundRight_eq_ite T _ _)⟩

/-- Settles O32: RSHRV is the per-lane variable form with `RND_T`. -/
theorem rshrvResult : Obligations.RshrvResult := by
  intro T vd vs1 vs2 s h1 h2
  obtain ⟨t, ht, hcompletes, hlanes⟩ :=
    variableForm_lanes (c := .rshrv T vd vs1 vs2) (op := roundRight T) (vd := vd) h1 h2
  refine ⟨t, ht, hcompletes, fun i hi k hk => ?_⟩
  rw [hlanes i hi, ← hk, roundRight_eq_ite]

/-! ### The value of the rounding shift (43_rounding_shift.md R106, R111) -/

/-- The half bit never takes the quotient out of the lane type's range: for `k >= 1` the quotient is at most half of the
largest value. -/
theorem laneValue_roundRight (T : LaneType) (x : BitVec T.width) {k : Nat} (hk : 1 ≤ k) :
    laneValue T (roundRight T x k) =
      laneValue T x / 2 ^ k + ((x.getLsbD (k - 1)).toNat : Int) := by
  have hbit : ((x.getLsbD (k - 1)).toNat : Int) ≤ 1 := by exact_mod_cast Bool.toNat_le _
  have hmax : 1 ≤ laneMax T := by cases T <;> decide
  have hlow := (laneValue_div_range T x k).1
  have hhalf : laneValue T x / 2 ^ k ≤ laneMax T / 2 := by
    obtain ⟨j, rfl⟩ := Nat.exists_eq_add_of_le hk
    rw [pow_add, pow_one, mul_comm, ← Int.ediv_ediv_of_nonneg (by positivity)]
    exact Int.ediv_le_ediv (by decide) (laneValue_div_range T x j).2
  rw [roundRight_eq_ite, if_neg (Nat.one_le_iff_ne_zero.1 hk)]
  exact laneValue_ofInt (by omega) (by omega)

/-- Settles O52: for `k = 0` neither shift changes the lane, otherwise the rounding shift adds the half bit. -/
theorem roundingMinusTruncation : Obligations.RoundingMinusTruncation := by
  intro T x k _
  rcases Nat.eq_zero_or_pos k with rfl | hk
  · simp [roundRight]
  · rw [laneValue_roundRight T x hk, laneValue_shiftRight, add_sub_cancel_left]
    cases hbit : x.getLsbD (k - 1) with
    | false => simp
    | true => simp [hk.ne']

/-- The lowest bit of a lane is the parity of its value, for both readings of the lane. -/
theorem getLsbD_zero_eq_laneValue_mod_two (T : LaneType) (x : BitVec T.width) :
    ((x.getLsbD 0).toNat : Int) = laneValue T x % 2 := by
  have hparity : ((x.getLsbD 0).toNat : Int) = (x.toNat : Int) % 2 := by
    rw [BitVec.getLsbD, Nat.toNat_testBit, pow_zero, Nat.div_one]
    exact Int.natCast_mod _ _
  rw [hparity]
  cases hT : T.signed with
  | false => rw [laneValue_unsigned hT]
  | true =>
    have hdvd : (2 : Int) ∣ ((2 ^ T.width : Nat) : Int) := by cases T <;> decide
    rw [laneValue_signed hT, BitVec.toInt_eq_toNat_bmod, ← Int.emod_emod_of_dvd _ hdvd,
      ← Int.emod_emod_of_dvd (Int.bmod _ _) hdvd, Int.bmod_emod]

/-- Bit `b` of a lane is the parity of the lane's value divided by `2^b`. -/
theorem getLsbD_eq_laneValue_div_mod_two (T : LaneType) (x : BitVec T.width) {b : Nat}
    (hb : b < T.width) : ((x.getLsbD b).toNat : Int) = laneValue T x / 2 ^ b % 2 := by
  have hbit : (shiftRight T x b).getLsbD 0 = x.getLsbD b := by
    rw [getLsbD_shiftRight T x b (width_pos T), Nat.zero_add, if_pos hb]
  rw [← hbit, getLsbD_zero_eq_laneValue_mod_two, laneValue_shiftRight]

/-- The truncated quotient plus the half bit is the quotient rounded to the nearest integer, ties upwards. -/
theorem quotient_add_halfBit (T : LaneType) (x : BitVec T.width) {k : Nat} (hk : 1 ≤ k)
    (hkw : k < T.width) :
    laneValue T x / 2 ^ k + ((x.getLsbD (k - 1)).toNat : Int) =
      (laneValue T x + 2 ^ (k - 1)) / 2 ^ k := by
  obtain ⟨j, rfl⟩ : ∃ j, k = j + 1 := ⟨k - 1, (Nat.sub_add_cancel hk).symm⟩
  have hpos : (0 : Int) < 2 ^ j := by positivity
  rw [Nat.add_sub_cancel, getLsbD_eq_laneValue_div_mod_two T x (Nat.lt_of_succ_lt hkw)]
  calc laneValue T x / 2 ^ (j + 1) + laneValue T x / 2 ^ j % 2
    _ = laneValue T x / 2 ^ j / 2 + laneValue T x / 2 ^ j % 2 := by
      rw [pow_succ, Int.ediv_ediv_of_nonneg hpos.le]
    _ = (laneValue T x / 2 ^ j + 1) / 2 := by omega
    _ = (laneValue T x + 2 ^ j) / 2 ^ j / 2 := by rw [Int.add_ediv_of_dvd_right dvd_rfl, Int.ediv_self hpos.ne']
    _ = (laneValue T x + 2 ^ j) / 2 ^ (j + 1) := by rw [pow_succ, Int.ediv_ediv_of_nonneg hpos.le]

/-- The value of the rounding shift in closed form (43_rounding_shift.md R106). -/
theorem laneValue_roundRight_closed (T : LaneType) (x : BitVec T.width) {k : Nat} (hk : 1 ≤ k)
    (hkw : k < T.width) :
    laneValue T (roundRight T x k) = (laneValue T x + 2 ^ (k - 1)) / 2 ^ k := by
  rw [laneValue_roundRight T x hk, quotient_add_halfBit T x hk hkw]

/-- A value between two multiples of `2^k`, the upper one excluded, rounds to one of the two or between. -/
theorem rounded_quotient_range {v lo hi : Int} {k : Nat} (hlo : lo * 2 ^ k ≤ v)
    (hhi : v < hi * 2 ^ k) : lo ≤ (v + 2 ^ (k - 1)) / 2 ^ k ∧ (v + 2 ^ (k - 1)) / 2 ^ k ≤ hi := by
  have hpos : (0 : Int) < 2 ^ k := by positivity
  have hhalf : (0 : Int) < 2 ^ (k - 1) := by positivity
  have hle : (2 : Int) ^ (k - 1) ≤ 2 ^ k := pow_le_pow_right₀ (by decide) (Nat.sub_le k 1)
  refine ⟨(Int.le_ediv_iff_mul_le hpos).2 (by omega), Int.lt_add_one_iff.1 ?_⟩
  rw [Int.ediv_lt_iff_lt_mul hpos, add_mul, one_mul]
  omega

/-- Settles O50: the ranges of the lane's value are from one multiple of `2^k` to another. -/
theorem roundingClosedFormAndRange : Obligations.RoundingClosedFormAndRange := by
  intro T x k hk hkw
  have hvalue := laneValue_roundRight_closed T x hk hkw
  obtain ⟨hmin, hmax⟩ := laneValue_range T x
  refine ⟨?closed, hvalue, fun hT => ?unsigned, fun hT => ?signed⟩
  case closed =>
    rw [roundRight_eq_ite, if_neg (Nat.one_le_iff_ne_zero.1 hk), quotient_add_halfBit T x hk hkw]
  case unsigned =>
    have hpow : (2 : Int) ^ (T.width - k) * 2 ^ k = 2 ^ T.width := pow_sub_mul_pow 2 hkw.le
    simp only [laneMin, laneMax, hT, Bool.false_eq_true, if_false] at hmin hmax
    rw [hvalue]
    exact rounded_quotient_range (by omega) (by omega)
  case signed =>
    have hpow : (2 : Int) ^ (T.width - 1 - k) * 2 ^ k = 2 ^ (T.width - 1) :=
      pow_sub_mul_pow 2 (Nat.le_sub_one_of_lt hkw)
    simp only [laneMin, laneMax, hT, if_true] at hmin hmax
    rw [hvalue]
    exact rounded_quotient_range (by rw [neg_mul]; omega) (by omega)

/-! ### The wrapping-addition form (43_rounding_shift.md R109) -/

/-- A lane type has `2^w` values (10_state.md R23). -/
theorem laneMax_add_one (T : LaneType) : laneMax T + 1 = laneMin T + 2 ^ T.width := by
  cases T <;> decide

/-- An integer that exceeds the lane type by less than `2^w` wraps around once. -/
theorem laneValue_ofInt_of_laneMax_lt {T : LaneType} {v : Int} (h1 : laneMax T < v)
    (h2 : v ≤ laneMax T + 2 ^ T.width) :
    laneValue T (BitVec.ofInt T.width v) = v - 2 ^ T.width := by
  have hwrap : BitVec.ofInt T.width v = BitVec.ofInt T.width (v - 2 ^ T.width) := by
    apply BitVec.eq_of_toInt_eq
    rw [BitVec.toInt_ofInt, BitVec.toInt_ofInt]
    exact_mod_cast (Int.sub_bmod_right v (2 ^ T.width)).symm
  have hcount := laneMax_add_one T
  rw [hwrap, laneValue_ofInt (by omega) (by omega)]

theorem laneValue_wrappingRound (T : LaneType) (x : BitVec T.width) (k : Nat) :
    laneValue T (wrappingRound T x k) =
      laneValue T (BitVec.ofInt T.width (laneValue T x + 2 ^ (k - 1))) / 2 ^ k :=
  laneValue_shiftRight T _ k

/-- Where the addition does not wrap, the wrapping form is the closed form of the rounding shift. -/
theorem wrappingRound_eq_roundRight {T : LaneType} {x : BitVec T.width} {k : Nat} (hk : 1 ≤ k)
    (hkw : k < T.width) (hband : laneValue T x + 2 ^ (k - 1) ≤ laneMax T) :
    wrappingRound T x k = roundRight T x k := by
  have hmin := (laneValue_range T x).1
  have hhalf : (0 : Int) < 2 ^ (k - 1) := by positivity
  apply laneValue_inj
  rw [laneValue_wrappingRound, laneValue_ofInt (by omega) hband, laneValue_roundRight_closed T x hk hkw]

/-- Where the addition wraps, the wrapping form falls short of the rounding shift by `2^(w-k)`. -/
theorem laneValue_wrappingRound_of_band {T : LaneType} {x : BitVec T.width} {k : Nat} (hk : 1 ≤ k)
    (hkw : k < T.width) (hband : laneMax T < laneValue T x + 2 ^ (k - 1)) :
    laneValue T (wrappingRound T x k) = laneValue T (roundRight T x k) - 2 ^ (T.width - k) := by
  have hmax := (laneValue_range T x).2
  have hhalf : (2 : Int) ^ (k - 1) ≤ 2 ^ T.width := pow_le_pow_right₀ (by decide) (by omega)
  have hpow : (2 : Int) ^ T.width = 2 ^ (T.width - k) * 2 ^ k := (pow_sub_mul_pow 2 hkw.le).symm
  rw [laneValue_wrappingRound, laneValue_ofInt_of_laneMax_lt hband (by omega), hpow,
    Int.sub_mul_ediv_right _ _ (by positivity), laneValue_roundRight_closed T x hk hkw]

/-- The overflow band of each kind of lane type (43_rounding_shift.md R109). -/
theorem laneMax_lt_iff_band (T : LaneType) (x : BitVec T.width) (k : Nat) :
    laneMax T < laneValue T x + 2 ^ (k - 1) ↔
      if T.signed then (2 : Int) ^ (T.width - 1) - 2 ^ (k - 1) ≤ x.toInt
      else 2 ^ T.width - 2 ^ (k - 1) ≤ x.toNat := by
  unfold laneMax laneValue
  split_ifs
  · omega
  · rw [Nat.sub_le_iff_le_add]
    zify
    omega

/-- Settles O51: outside the band the addition does not wrap, inside it the two forms differ by `2^(w-k)`. -/
theorem wrappingFormAgreesOutsideBand : Obligations.WrappingFormAgreesOutsideBand := by
  intro T x k hk hkw
  refine ⟨⟨fun heq => ?_, wrappingRound_eq_roundRight hk hkw⟩, laneMax_lt_iff_band T x k⟩
  by_contra hband
  have hshort := laneValue_wrappingRound_of_band hk hkw (not_le.1 hband)
  have hpos : (0 : Int) < 2 ^ (T.width - k) := by positivity
  rw [heq] at hshort
  omega

end Sys2Proof.Machine

namespace Sys2Proof.Machine

open Sys2Proof

/-! ### The zeroing and merging forms on the machine (44_masked_shift.md R117 to R122, R125) -/

/-- A zeroing command with its amount in range and its data and mask written completes: active lanes of the data under
`op`, inactive lanes zero. -/
theorem zeroingForm_lanes {c : Instr} {T : LaneType} {op : BitVec T.width → Nat → BitVec T.width}
    {vd vs1 : VIndex} {k : BitVec 6} {vm : MIndex} {s : State} (hk : k.toNat < T.width)
    (h1 : s.written (.v vs1) = true) (hm : s.written (.m vm) = true) :
    ∃ t, zeroingForm c T op vd vs1 k vm s = .next t ∧ CompletesIn s t vd ∧
      ∀ i < laneCount T s.vlen, lane T (t.vreg vd) i =
        if (s.mreg vm).getLsbD i then op (lane T (s.vreg vs1) i) k.toNat else 0 := by
  refine ⟨_, zeroingForm_completes hk h1 hm, completesIn_complete s vd _, fun i hi => ?_⟩
  rw [lane_vreg_complete, lane_selectLanes T _ _ _ hi, lane_mapLanes T op _ _ hi, lane_zero, active]

/-- A merging command with its amount in range and its data, mask and base written completes: active lanes of the data
under `op`, inactive lanes of the base. -/
theorem mergingForm_lanes {c : Instr} {T : LaneType} {op : BitVec T.width → Nat → BitVec T.width}
    {vd vs1 : VIndex} {k : BitVec 6} {vm : MIndex} {s : State} (hk : k.toNat < T.width)
    (h1 : s.written (.v vs1) = true) (hm : s.written (.m vm) = true) (hd : s.written (.v vd) = true) :
    ∃ t, mergingForm c T op vd vs1 k vm s = .next t ∧ CompletesIn s t vd ∧
      ∀ i < laneCount T s.vlen, lane T (t.vreg vd) i =
        if (s.mreg vm).getLsbD i then op (lane T (s.vreg vs1) i) k.toNat
        else lane T (s.vreg vd) i := by
  refine ⟨_, mergingForm_completes hk h1 hm hd, completesIn_complete s vd _, fun i hi => ?_⟩
  rw [lane_vreg_complete, lane_selectLanes T _ _ _ hi, lane_mapLanes T op _ _ hi, active]

/-- A per-lane variable merging command with its data, counts, mask and base written completes: active lanes of the
data under `op` with their own counts modulo the width, inactive lanes of the base. -/
theorem variableMergingForm_lanes {c : Instr} {T : LaneType}
    {op : BitVec T.width → Nat → BitVec T.width} {vd vs1 vs2 : VIndex} {vm : MIndex} {s : State}
    (h1 : s.written (.v vs1) = true) (h2 : s.written (.v vs2) = true)
    (hm : s.written (.m vm) = true) (hd : s.written (.v vd) = true) :
    ∃ t, variableMergingForm c T op vd vs1 vs2 vm s = .next t ∧ CompletesIn s t vd ∧
      ∀ i < laneCount T s.vlen, lane T (t.vreg vd) i =
        if (s.mreg vm).getLsbD i then
          op (lane T (s.vreg vs1) i) ((lane T (s.vreg vs2) i).toNat % T.width)
        else lane T (s.vreg vd) i := by
  refine ⟨_, variableMergingForm_completes h1 h2 hm hd, completesIn_complete s vd _, fun i hi => ?_⟩
  rw [lane_vreg_complete, lane_selectLanes T _ _ _ hi, lane_zipLanes T op _ _ hi, laneAmount_eq_mod,
    active]

/-- Settles O33: SHLI.Z is the zeroing form with `SHL_w`. -/
theorem shliZResult : Obligations.ShliZResult := fun _ _ _ _ _ _ => zeroingForm_lanes

/-- Settles O34: SHRI.Z is the zeroing form with `SHR_T`. -/
theorem shriZResult : Obligations.ShriZResult := fun _ _ _ _ _ _ => zeroingForm_lanes

/-- Settles O35: SHLI.M is the merging form with `SHL_w`. -/
theorem shliMResult : Obligations.ShliMResult := fun _ _ _ _ _ _ => mergingForm_lanes

/-- Settles O36: SHRI.M is the merging form with `SHR_T`. -/
theorem shriMResult : Obligations.ShriMResult := fun _ _ _ _ _ _ => mergingForm_lanes

/-- Settles O37: SHLV.M is the per-lane variable merging form with `SHL_w`. -/
theorem shlvMResult : Obligations.ShlvMResult := fun _ _ _ _ _ _ => variableMergingForm_lanes

/-- Settles O38: SHRV.M is the per-lane variable merging form with `SHR_T`. -/
theorem shrvMResult : Obligations.ShrvMResult := fun _ _ _ _ _ _ => variableMergingForm_lanes

/-- A merging command reads its base, whatever the mask: with the base unwritten it faults there. -/
theorem mergingForm_base_unwritten {c : Instr} {T : LaneType}
    {op : BitVec T.width → Nat → BitVec T.width} {vd vs1 : VIndex} {k : BitVec 6} {vm : MIndex}
    {s : State} (hk : k.toNat < T.width) (h1 : s.written (.v vs1) = true)
    (hm : s.written (.m vm) = true) (hd : s.written (.v vd) = false) :
    mergingForm c T op vd vs1 k vm s = .fault (.unwrittenRead c (.v vd)) := by
  rw [mergingForm, withImm_inRange ((immInRange_iff T k).2 hk), withV_written h1, withM_written hm,
    withV_unwritten hd]

/-- A per-lane variable merging command reads its base, whatever the mask: with the base unwritten it faults there. -/
theorem variableMergingForm_base_unwritten {c : Instr} {T : LaneType}
    {op : BitVec T.width → Nat → BitVec T.width} {vd vs1 vs2 : VIndex} {vm : MIndex} {s : State}
    (h1 : s.written (.v vs1) = true) (h2 : s.written (.v vs2) = true)
    (hm : s.written (.m vm) = true) (hd : s.written (.v vd) = false) :
    variableMergingForm c T op vd vs1 vs2 vm s = .fault (.unwrittenRead c (.v vd)) := by
  rw [variableMergingForm, withV_written h1, withV_written h2, withM_written hm, withV_unwritten hd]

/-- Settles O17: the merging forms read the base last and fault there, the zeroing form does not read `vd`. -/
theorem mergeBaseAlwaysRead : Obligations.MergeBaseAlwaysRead := by
  intro T vd vs1 vs2 k vm s hk h1 h2 hm hd
  obtain ⟨t, ht, htc, -⟩ := shliZResult T vd vs1 k vm s hk h1 hm
  obtain ⟨u, hu, huc, -⟩ := shriZResult T vd vs1 k vm s hk h1 hm
  exact ⟨mergingForm_base_unwritten hk h1 hm hd, mergingForm_base_unwritten hk h1 hm hd,
    variableMergingForm_base_unwritten h1 h2 hm hd, variableMergingForm_base_unwritten h1 h2 hm hd,
    ⟨t, ht, htc⟩, ⟨u, hu, huc⟩⟩

/-! ### The gate with every lane active (44_masked_shift.md R123) -/

/-- A gate whose lanes are all active hands on the unpredicated result. -/
theorem selectLanes_of_all_active {T : LaneType} {m g : Nat} {mask : BitVec m} {a : BitVec (64 * g)}
    (b : BitVec (64 * g)) (hall : ∀ i < laneCount T (64 * g), mask.getLsbD i = true) :
    selectLanes T mask a b = a :=
  eq_of_lane_eq T fun i hi => (lane_selectLanes T mask a b hi).trans (if_pos (hall i hi))

section AllActive

variable {c c' : Instr} {T : LaneType} {op : BitVec T.width → Nat → BitVec T.width}
  {vd vs1 vs2 : VIndex} {k : BitVec 6} {vm : MIndex} {s : State}

theorem zeroingForm_eq_constantForm (hk : k.toNat < T.width) (h1 : s.written (.v vs1) = true)
    (hm : s.written (.m vm) = true) (hall : ∀ i < laneCount T s.vlen, (s.mreg vm).getLsbD i = true) :
    zeroingForm c T op vd vs1 k vm s = constantForm c' T op vd vs1 k s := by
  rw [zeroingForm_completes hk h1 hm, constantForm_completes hk h1, selectLanes_of_all_active _ hall]

theorem mergingForm_eq_constantForm (hk : k.toNat < T.width) (h1 : s.written (.v vs1) = true)
    (hm : s.written (.m vm) = true) (hd : s.written (.v vd) = true)
    (hall : ∀ i < laneCount T s.vlen, (s.mreg vm).getLsbD i = true) :
    mergingForm c T op vd vs1 k vm s = constantForm c' T op vd vs1 k s := by
  rw [mergingForm_completes hk h1 hm hd, constantForm_completes hk h1,
    selectLanes_of_all_active _ hall]

theorem variableMergingForm_eq_variableForm (h1 : s.written (.v vs1) = true)
    (h2 : s.written (.v vs2) = true) (hm : s.written (.m vm) = true)
    (hd : s.written (.v vd) = true)
    (hall : ∀ i < laneCount T s.vlen, (s.mreg vm).getLsbD i = true) :
    variableMergingForm c T op vd vs1 vs2 vm s = variableForm c' T op vd vs1 vs2 s := by
  rw [variableMergingForm_completes h1 h2 hm hd, variableForm_completes h1 h2,
    selectLanes_of_all_active _ hall]

/-- With any mask the zeroing form is the gate over the constant-amount form's result, with zero. -/
theorem zeroingForm_gates_constantForm (hk : k.toNat < T.width) (h1 : s.written (.v vs1) = true)
    (hm : s.written (.m vm) = true) :
    ∃ t u, constantForm c T op vd vs1 k s = .next t ∧ zeroingForm c' T op vd vs1 k vm s = .next u ∧
      ∀ i < laneCount T s.vlen,
        lane T (u.vreg vd) i = if (s.mreg vm).getLsbD i then lane T (t.vreg vd) i else 0 := by
  obtain ⟨t, ht, -, hplain⟩ := constantForm_lanes (c := c) (op := op) (vd := vd) hk h1
  obtain ⟨u, hu, -, hgated⟩ := zeroingForm_lanes (c := c') (op := op) (vd := vd) hk h1 hm
  exact ⟨t, u, ht, hu, fun i hi => by rw [hgated i hi, hplain i hi]⟩

end AllActive

/-- Settles O54: each predicated form with every lane active is its unpredicated form, whatever the lane operation. -/
theorem allActiveMaskIsNoMask : Obligations.AllActiveMaskIsNoMask := by
  intro T vd vs1 vs2 k vm s hk h1 h2 hm hd
  refine ⟨fun hall => ?_, zeroingForm_gates_constantForm hk h1 hm,
    zeroingForm_gates_constantForm hk h1 hm⟩
  exact ⟨zeroingForm_eq_constantForm hk h1 hm hall, zeroingForm_eq_constantForm hk h1 hm hall,
    mergingForm_eq_constantForm hk h1 hm hd hall, mergingForm_eq_constantForm hk h1 hm hd hall,
    variableMergingForm_eq_variableForm h1 h2 hm hd hall,
    variableMergingForm_eq_variableForm h1 h2 hm hd hall⟩

/-! ### The gate between two results (44_masked_shift.md R116, R124) -/

/-- Where a well-formed command whose result is no draw answers a next state, the lanes of its destination are those
of the result. -/
theorem lane_dest_of_exec_next (T : LaneType) {c : Instr} {vd : VIndex} {s t : State}
    {v : BitVec s.vlen} (h : exec c s = .next t) (hw : c.wf = true) (hdest : destOf c = vd)
    (hv : resultOf s.vreg s.mreg s.xreg c = some v) (i : Nat) :
    lane T (t.vreg vd) i = lane T v i := by
  have hbits := resultBits_of_exec_next hw h
  rw [resultBits, hv, hdest] at hbits
  split at hbits
  · exact lane_eq_of_toNat_eq T (Option.some.inj hbits).symm i
  · cases hbits

/-- A command whose result is the gate over the result of another one with the same destination: active lanes are
those that the other one leaves there. -/
theorem lane_gate_of_exec_next {T : LaneType} {plain predicated : Instr} {vd : VIndex}
    {s t u : State} {m : Nat} {mask : BitVec m} {a b : BitVec s.vlen} {i : Nat}
    (ht : exec plain s = .next t) (hu : exec predicated s = .next u) (hw : plain.wf = true)
    (hw' : predicated.wf = true) (hdest : destOf plain = vd) (hdest' : destOf predicated = vd)
    (ha : resultOf s.vreg s.mreg s.xreg plain = some a)
    (hgate : resultOf s.vreg s.mreg s.xreg predicated = some (selectLanes T mask a b))
    (hi : i < laneCount T s.vlen) :
    lane T (u.vreg vd) i = if mask.getLsbD i then lane T (t.vreg vd) i else lane T b i := by
  rw [lane_dest_of_exec_next T hu hw' hdest' hgate, lane_selectLanes T mask a b hi,
    lane_dest_of_exec_next T ht hw hdest ha, active]

/-- Settles O53: the result of each predicated command is the gate over that of its unpredicated command. -/
theorem predicatedIsGateOfUnpredicated : Obligations.PredicatedIsGateOfUnpredicated := by
  intro T vd vs1 vs2 k vm s t u plain predicated base hpair hw ht hu i hi
  rcases hpair with ⟨rfl, rfl, rfl⟩ | ⟨rfl, rfl, rfl⟩ | ⟨rfl, rfl, rfl⟩ | ⟨rfl, rfl, rfl⟩ |
    ⟨rfl, rfl, rfl⟩ | ⟨rfl, rfl, rfl⟩
  case inl | inr.inl =>
    rw [← lane_zero T (n := s.vlen) i]
    exact lane_gate_of_exec_next ht hu hw hw rfl rfl rfl rfl hi
  all_goals exact lane_gate_of_exec_next ht hu hw hw rfl rfl rfl rfl hi

/-- Lane `i` of a gate depends on mask bit `i`, and on lane `i` of the side that it picks. -/
theorem lane_selectLanes_congr {T : LaneType} {m m' n n' : Nat} {mask : BitVec m} {mask' : BitVec m'}
    {a b : BitVec n} {a' b' : BitVec n'} {i : Nat} (hi : i < laneCount T n) (hi' : i < laneCount T n')
    (hmask : mask.getLsbD i = mask'.getLsbD i)
    (hactive : mask.getLsbD i = true → lane T a i = lane T a' i)
    (hinactive : mask.getLsbD i = false → lane T b i = lane T b' i) :
    lane T (selectLanes T mask a b) i = lane T (selectLanes T mask' a' b') i := by
  rw [lane_selectLanes T _ _ _ hi, lane_selectLanes T _ _ _ hi', active, active, ← hmask]
  cases hbit : mask.getLsbD i with
  | true => exact hactive hbit
  | false => exact hinactive hbit

theorem lane_mapLanes_congr {T : LaneType} {op : BitVec T.width → Nat → BitVec T.width} {n n' : Nat}
    {a : BitVec n} {a' : BitVec n'} {k i : Nat} (hi : i < laneCount T n)
    (hi' : i < laneCount T n') (ha : lane T a i = lane T a' i) :
    lane T (mapLanes T op a k) i = lane T (mapLanes T op a' k) i := by
  rw [lane_mapLanes T op _ _ hi, lane_mapLanes T op _ _ hi', ha]

theorem lane_zipLanes_congr {T : LaneType} {op : BitVec T.width → Nat → BitVec T.width} {n n' : Nat}
    {a counts : BitVec n} {a' counts' : BitVec n'} {i : Nat} (hi : i < laneCount T n)
    (hi' : i < laneCount T n') (ha : lane T a i = lane T a' i)
    (hcounts : lane T counts i = lane T counts' i) :
    lane T (zipLanes T op a counts) i = lane T (zipLanes T op a' counts') i := by
  rw [lane_zipLanes T op _ _ hi, lane_zipLanes T op _ _ hi', ha, hcounts]

/-- Two runs of a command whose results agree in lane `i` agree there in the destination. -/
theorem lane_dest_congr {T : LaneType} {c : Instr} {vd : VIndex} {s s' t t' : State}
    {v : BitVec s.vlen} {v' : BitVec s'.vlen} {i : Nat} (h : exec c s = .next t)
    (h' : exec c s' = .next t') (hw : c.wf = true) (hdest : destOf c = vd)
    (hv : resultOf s.vreg s.mreg s.xreg c = some v)
    (hv' : resultOf s'.vreg s'.mreg s'.xreg c = some v') (hlane : lane T v i = lane T v' i) :
    lane T (t.vreg vd) i = lane T (t'.vreg vd) i := by
  rw [lane_dest_of_exec_next T h hw hdest hv, lane_dest_of_exec_next T h' hw hdest hv', hlane]

/-- Settles O55: in both runs lane `i` is that of a gate, and what the gate picks there agrees. -/
theorem inactiveLanesHaveNoEffect : Obligations.InactiveLanesHaveNoEffect := by
  intro T vd vs1 vs2 k vm c s s' t t' i hc hw h h' hi hi' hmask hdata hcounts hbase
  rcases hc with rfl | rfl | rfl | rfl | rfl | rfl
  case inl | inr.inl =>
    have hzero : lane T (0 : BitVec s.vlen) i = lane T (0 : BitVec s'.vlen) i := by
      rw [lane_zero, lane_zero]
    exact lane_dest_congr h h' hw rfl rfl rfl <| lane_selectLanes_congr hi hi' hmask
      (fun hbit => lane_mapLanes_congr hi hi' (hdata hbit)) (fun _ => hzero)
  case inr.inr.inl | inr.inr.inr.inl =>
    exact lane_dest_congr h h' hw rfl rfl rfl <| lane_selectLanes_congr hi hi' hmask
      (fun hbit => lane_mapLanes_congr hi hi' (hdata hbit)) (hbase rfl)
  case inr.inr.inr.inr.inl | inr.inr.inr.inr.inr =>
    exact lane_dest_congr h h' hw rfl rfl rfl <| lane_selectLanes_congr hi hi' hmask
      (fun hbit => lane_zipLanes_congr hi hi' (hdata hbit) (hcounts hbit)) (hbase rfl)

end Sys2Proof.Machine

namespace Sys2Proof.Machine

open Sys2Proof

/-! ### The byte that an index takes out of a group (45_multishift.md R131, R132, R135) -/

/-- The byte MSHIFT takes out of group `x` at index `n`: the low byte of the rotated group (45_multishift.md R132).
`mshift_completes` ties it to `exec`. -/
def groupWindow (x : BitVec 64) (n : Nat) : BitVec 8 := (rotr64 x n).extractLsb' 0 8

/-- The window at an index is the 8 bits of the group from the index on, modulo 64. -/
theorem groupWindow_getLsbD (x : BitVec 64) (n : Nat) {b : Nat} (hb : b < 8) :
    (groupWindow x n).getLsbD b = x.getLsbD ((b + n) % 64) := by
  rw [groupWindow, BitVec.getLsbD_extractLsb', decide_eq_true hb, Bool.true_and, Nat.zero_add,
    rotr64_getLsbD x n b (by omega), Nat.add_mod_mod]

/-- An index acts as its value modulo 64. -/
theorem groupWindow_congr (x : BitVec 64) {n m : Nat} (h : n % 64 = m % 64) :
    groupWindow x n = groupWindow x m := by
  simp only [groupWindow, rotr64, h]

/-- An index `8p` takes byte `p mod 8` of the group: the window does not wrap. -/
theorem groupWindow_eight_mul (x : BitVec 64) (p : Nat) : groupWindow x (8 * p) = byte x (p % 8) := by
  apply BitVec.eq_of_getLsbD_eq
  intro b hb
  have hposition : (b + 8 * p) % 64 = 8 * (p % 8) + b := by omega
  rw [groupWindow_getLsbD x _ hb, byte, slice_getLsbD_of_lt _ _ hb, hposition]

/-! ### The bytes of a group (20_memory.md R41) -/

/-- Byte `j` of group `g` is register byte `8g + j`. -/
theorem byte_rotationGroup {n : Nat} (v : BitVec n) (g : Nat) {j : Nat} (hj : j < 8) :
    byte (rotationGroup v g) j = byte v (8 * g + j) :=
  slice_slice (w := 64) (m := 8) rfl v g hj

/-- A group is determined by its bytes. -/
theorem rotationGroup_eq_of_byte_eq {n n' : Nat} {v : BitVec n} {v' : BitVec n'} {g : Nat}
    (h : ∀ j < 8, byte v (8 * g + j) = byte v' (8 * g + j)) : rotationGroup v g = rotationGroup v' g := by
  refine eq_of_slice_eq (w := 8) (count := 8) (by decide) (by decide) fun j hj => ?_
  exact (byte_rotationGroup v g hj).trans ((h j hj).trans (byte_rotationGroup v' g hj).symm)

/-- In states of the same `VLEN`, registers that agree in the bytes of every group have the same bits. -/
theorem toNat_vreg_eq_of_byte_eq {s t : State} (hgroups : t.vgroups = s.vgroups) {r r' : VIndex}
    (h : ∀ g < s.vgroups, ∀ j < 8, byte (t.vreg r) (8 * g + j) = byte (s.vreg r') (8 * g + j)) :
    (t.vreg r).toNat = (s.vreg r').toNat := by
  obtain ⟨k, _⟩ := s
  obtain ⟨k', _⟩ := t
  obtain rfl : k' = k := hgroups
  refine congrArg BitVec.toNat (eq_of_byte_eq fun p hp => ?_)
  have hbyte := h (p / 8) (Nat.div_lt_of_lt_mul hp) (p % 8) (Nat.mod_lt p (by decide))
  rwa [Nat.div_add_mod] at hbyte

/-! ### MSHIFT on the machine (45_multishift.md R132 to R135) -/

/-- MSHIFT with its data and its indices written completes, each byte of a group the window of that group at its own
index. -/
theorem mshift_completes {vd vs1 vs2 : VIndex} {s : State} (h1 : s.written (.v vs1) = true)
    (h2 : s.written (.v vs2) = true) :
    ∃ t, exec (.mshift vd vs1 vs2) s = .next t ∧ CompletesIn s t vd ∧
      ∀ g < s.vgroups, ∀ j < 8, byte (t.vreg vd) (8 * g + j) =
        groupWindow (rotationGroup (s.vreg vs1) g) (byte (s.vreg vs2) (8 * g + j)).toNat := by
  refine ⟨s.complete vd (rotateExtract (s.vreg vs1) (s.vreg vs2)), ?runs, completesIn_complete s vd _,
    fun g hg j hj => ?window⟩
  case runs => simp only [exec, execMshift, withV_written h1, withV_written h2]
  case window =>
    have hbyte : 8 * g + j < s.vlen / 8 := by unfold State.vlen; omega
    have hgroup : (8 * g + j) / 8 = g := by omega
    rw [byte_vreg_complete, byte_rotateExtract _ _ hbyte, hgroup, groupWindow]

/-- Where MSHIFT answers a next state, its sources were written, and so it completed. -/
theorem completes_of_mshift_next {vd vs1 vs2 : VIndex} {s t : State}
    (h : exec (.mshift vd vs1 vs2) s = .next t) :
    CompletesIn s t vd ∧
      ∀ g < s.vgroups, ∀ j < 8, byte (t.vreg vd) (8 * g + j) =
        groupWindow (rotationGroup (s.vreg vs1) g) (byte (s.vreg vs2) (8 * g + j)).toNat := by
  obtain ⟨-, hready, -⟩ | ⟨hnwf, -⟩ := exec_next h
  · have h1 : s.written (.v vs1) = true := hready _ (.head _)
    have h2 : s.written (.v vs2) = true := hready _ (.tail _ (.head _))
    obtain ⟨t', ht', hcompletes⟩ := mshift_completes (vd := vd) h1 h2
    obtain rfl := Host.Outcome.next.inj (h.symm.trans ht')
    exact hcompletes
  · cases hnwf

theorem byte_of_mshift_next {vd vs1 vs2 : VIndex} {s t : State} {g j : Nat}
    (h : exec (.mshift vd vs1 vs2) s = .next t) (hg : g < s.vgroups) (hj : j < 8) :
    byte (t.vreg vd) (8 * g + j) =
      groupWindow (rotationGroup (s.vreg vs1) g) (byte (s.vreg vs2) (8 * g + j)).toNat :=
  (completes_of_mshift_next h).2 g hg j hj

theorem vgroups_of_mshift_next {vd vs1 vs2 : VIndex} {s t : State}
    (h : exec (.mshift vd vs1 vs2) s = .next t) : t.vgroups = s.vgroups := by
  obtain ⟨⟨⟨hgroups, -⟩, -⟩, -⟩ := completes_of_mshift_next h
  exact hgroups

/-- An index `8p` takes byte `p mod 8` of its group of the data. -/
theorem byte_of_mshift_next_of_index {vd vs1 vs2 : VIndex} {s t : State} {g j p : Nat}
    (h : exec (.mshift vd vs1 vs2) s = .next t) (hg : g < s.vgroups) (hj : j < 8)
    (hindex : (byte (s.vreg vs2) (8 * g + j)).toNat = 8 * p) :
    byte (t.vreg vd) (8 * g + j) = byte (s.vreg vs1) (8 * g + p % 8) := by
  rw [byte_of_mshift_next h hg hj, hindex, groupWindow_eight_mul,
    byte_rotationGroup _ _ (Nat.mod_lt p (by decide))]

/-- Settles O39: each byte of the result is the window of its group at its index. -/
theorem mshiftResult : Obligations.MshiftResult := by
  intro vd vs1 vs2 s h1 h2
  obtain ⟨t, ht, hcompletes, hbytes⟩ := mshift_completes (vd := vd) h1 h2
  refine ⟨t, ht, hcompletes, fun g hg j hj b hb => ?_⟩
  rw [hbytes g hg j hj, groupWindow_getLsbD _ _ hb]

/-- Settles O56: in both runs each byte of the group is the same window, as the index bytes of the group agree too. -/
theorem groupsNeverCross : Obligations.GroupsNeverCross := by
  intro vd vs1 vs2 vd' vs1' vs2' s s' t t' g h h' hg hg' hdata hindices
  refine rotationGroup_eq_of_byte_eq fun j hj => ?_
  have hindex : byte (s.vreg vs2) (8 * g + j) = byte (s'.vreg vs2') (8 * g + j) := by
    rw [← byte_rotationGroup _ g hj, hindices, byte_rotationGroup _ g hj]
  rw [byte_of_mshift_next h hg hj, byte_of_mshift_next h' hg' hj, hdata, hindex]

/-- Settles O57: the window of a group bit by bit, then at the indices `8p`, `8j` and `8(7 - j)`. -/
theorem byteIndicesPermuteGroups : Obligations.ByteIndicesPermuteGroups := by
  intro vd vs1 vs2 s t h
  refine ⟨fun g hg j hj b hb => ?window, fun g hg j hj p => byte_of_mshift_next_of_index h hg hj,
    fun hindex => ?identity, fun hindex g hg j hj => ?reversal⟩
  case window => rw [byte_of_mshift_next h hg hj, groupWindow_getLsbD _ _ hb]
  case identity =>
    refine toNat_vreg_eq_of_byte_eq (vgroups_of_mshift_next h) fun g hg j hj => ?_
    rw [byte_of_mshift_next_of_index h hg hj (hindex g hg j hj), Nat.mod_eq_of_lt hj]
  case reversal =>
    rw [byte_of_mshift_next_of_index h hg hj (hindex g hg j hj),
      Nat.mod_eq_of_lt (show 7 - j < 8 by omega)]

/-- Settles O58: in both runs each byte is a window of the same group, at indices that agree modulo 64. -/
theorem onlyLowIndexBitsMatter : Obligations.OnlyLowIndexBitsMatter := by
  intro vd vs1 vs2 vs2' s t t' h h' hindices
  have hgroups : t.vgroups = s.vgroups := vgroups_of_mshift_next h
  have hgroups' : t'.vgroups = s.vgroups := vgroups_of_mshift_next h'
  refine toNat_vreg_eq_of_byte_eq (hgroups.trans hgroups'.symm) fun g hg j hj => ?_
  rw [hgroups'] at hg
  rw [byte_of_mshift_next h hg hj, byte_of_mshift_next h' hg hj]
  exact groupWindow_congr _ (hindices (8 * g + j) (by omega))

end Sys2Proof.Machine

namespace Sys2Proof.Machine

open Sys2Proof

/-! ### Issuing a word: by what it decodes to (60_exceptions.md R140, R144) -/

theorem issue_of_decode_command {c : Command} {i : Instr} (h : decode c = .command i) (s : State) :
    issue c s = exec i s := by simp only [issue, h]

theorem issue_of_decode_raises {c : Command} {e : Cause} (h : decode c = .raises e) (s : State) :
    issue c s = .next (s.raise e c) := by simp only [issue, h]

theorem step_eq_issue {s : State} {c : Command} (hnone : s.pending = none)
    (hc : s.wordAtPc = some c) : step s = issue c s := by simp [step, runCommand, hnone, hc]

/-- Settles O2: the word at an aligned `pc` is issued, and issuing it takes the exception of its decoding. -/
theorem stepTakesDecodeException : Obligations.StepTakesDecodeException := by
  intro s c e hnone haligned hword hdecode
  have hc : s.wordAtPc = some c := (wordAtPc_of_aligned haligned).trans hword
  exact (step_eq_issue hnone hc).trans (issue_of_decode_raises hdecode s)

/-! ### A pending report plays no part in a command (60_exceptions.md R149) -/

/-- What every command reads (operands, the draw counter) and how it ends (`complete`, `completeDraw`, `raise`) leaves
the report out, so each arm is the same computation. -/
theorem exec_of_pending (i : Instr) (s : State) (p : Option Report) :
    exec i { s with pending := p } = exec i s := by
  cases i <;> rfl

/-- Settles O19: neither the command nor the exception of the word's decoding sees the report. -/
theorem nextCommandAsIfFirst : Obligations.NextCommandAsIfFirst := by
  intro c s p
  cases hdecode : decode c with
  | command i =>
    rw [issue_of_decode_command hdecode, issue_of_decode_command hdecode, exec_of_pending]
  | raises e =>
    rw [issue_of_decode_raises hdecode, issue_of_decode_raises hdecode, State.raise_of_pending]

/-! ### Completing, and faulting on an unwritten register (60_exceptions.md R140, R146, R147) -/

/-- A well-formed command that answers a next state completes, in its frame, whether it wrote a value or a draw. -/
theorem completes_of_exec_next {i : Instr} {s t : State} (hw : i.wf = true) (h : exec i s = .next t) :
    t.pending = none ∧ t.pc = s.pc + 4 ∧ OnlyVdChanged s t (destOf i) := by
  rcases exec_next h with ⟨-, -, ⟨v, rfl⟩ | ⟨v, rfl⟩⟩ | ⟨hnwf, -⟩
  · exact ⟨rfl, rfl, onlyVdChanged_complete s _ v⟩
  · exact ⟨rfl, rfl, onlyVdChanged_completeDraw s _ v⟩
  · simp [hw] at hnwf

theorem exists_next_of_ready {i : Instr} {s : State} (hw : i.wf = true) (hr : Ready s i) :
    ∃ t, exec i s = .next t := by
  obtain ⟨_, h⟩ | ⟨_, h⟩ := exec_of_ready hw hr
  · exact ⟨_, h⟩
  · exact ⟨_, h⟩

theorem not_ready_iff (s : State) (i : Instr) :
    ¬ Ready s i ↔ ∃ r ∈ sourcesOf i, s.written r = false := by simp [Ready]

theorem not_ready_of_exec_fault {i : Instr} {s : State} {f : Fault} (hw : i.wf = true)
    (h : exec i s = .fault f) : ¬ Ready s i := by
  intro hr
  obtain ⟨t, ht⟩ := exists_next_of_ready hw hr
  cases h.symm.trans ht

/-- Settles O13: a word that decodes to a command has a well-formed one, which completes; a word that decodes to an
exception takes it, in any state. -/
theorem issueCompletesOrRaisesOne : Obligations.IssueCompletesOrRaisesOne := by
  refine ⟨fun c s t hissue => ?_, fun c s e hdecode => issue_of_decode_raises hdecode s⟩
  cases hdecode : decode c with
  | command i =>
    have hexec : exec i s = .next t := (issue_of_decode_command hdecode s).symm.trans hissue
    have hw : i.wf = true := (encode_and_wf_of_decode hdecode).2
    obtain ⟨hnone, hpc, hframe⟩ := completes_of_exec_next hw hexec
    exact .inl ⟨⟨i, rfl, hframe⟩, hnone, hpc⟩
  | raises e =>
    have hraise : t = s.raise e c :=
      Host.Outcome.next.inj (hissue.symm.trans (issue_of_decode_raises hdecode s))
    exact .inr ⟨e, rfl, hraise⟩

/-- Settles O16: with its sources written the command completes; with one unwritten it faults and names such a one. -/
theorem unwrittenReadFaults : Obligations.UnwrittenReadFaults := by
  intro i s hw
  rw [← not_ready_iff]
  refine ⟨⟨fun ⟨f, hf⟩ => not_ready_of_exec_fault hw hf, fun hr => ?faults⟩, fun f hf => ?names⟩
  case faults =>
    obtain ⟨r, -, -, hfault⟩ := exec_of_not_ready hw hr
    exact ⟨_, hfault⟩
  case names =>
    obtain ⟨r, hr, hunwritten, hfault⟩ := exec_of_not_ready hw (not_ready_of_exec_fault hw hf)
    exact ⟨r, hr, hunwritten, Host.Outcome.fault.inj (hf.symm.trans hfault)⟩

/-- Settles O20: the hypotheses of `exec_of_ready` ask nothing of the data, and both of its ways to end are completions. -/
theorem noDataDependentException : Obligations.NoDataDependentException := by
  intro i s hw hr
  obtain ⟨t, ht⟩ := exists_next_of_ready hw hr
  exact ⟨t, ht, completes_of_exec_next hw ht⟩

end Sys2Proof.Machine

namespace Sys2Proof.Machine

open Sys2Proof

/-! ### One step, by the report and the word at `pc` (70_reset_and_hazards.md R173) -/

theorem step_of_pending {s : State} (hpending : s.pending.isSome = true) :
    step s = .refused .runEndedByException := by simp [step, runCommand, hpending]

theorem step_of_no_word {s : State} (hnone : s.pending = none) (hc : s.wordAtPc = none) :
    step s = .refused (if s.completed then .runCompleted else .pcOutsideStream) := by
  simp [step, runCommand, hnone, hc]

/-! ### Written registers stay written, and reading them is no fault (60_exceptions.md R147) -/

theorem written_of_exec_next {i : Instr} {s t : State} {r : RegName} (h : exec i s = .next t)
    (hr : s.written r = true) : t.written r = true := by
  rcases exec_next h with ⟨-, -, ⟨v, rfl⟩ | ⟨v, rfl⟩⟩ | ⟨-, rfl⟩
  · rw [State.written_complete, hr, Bool.true_or]
  · rw [State.written_completeDraw, hr, Bool.true_or]
  · rwa [State.raise_written]

theorem written_of_step_next {s t : State} {r : RegName} (h : step s = .next t)
    (hr : s.written r = true) : t.written r = true := by
  obtain ⟨-, c, -, ⟨i, -, hexec⟩ | ⟨e, -, rfl⟩⟩ := step_next h
  · exact written_of_exec_next hexec hr
  · rwa [State.raise_written]

theorem exec_ne_fault_of_ready {i : Instr} {s : State} (hr : Ready s i) (f : Fault) :
    exec i s ≠ .fault f := by
  intro hfault
  cases hw : i.wf with
  | false => cases (exec_of_not_wf hw s).symm.trans hfault
  | true => exact not_ready_of_exec_fault hw hfault hr

/-- In a state whose registers are all written every command is ready, so no issued word faults. -/
theorem issue_ne_fault_of_allWritten {s : State} (hall : AllWritten s) (c : Command) (f : Fault) :
    issue c s ≠ .fault f := by
  cases hdecode : decode c with
  | command i =>
    rw [issue_of_decode_command hdecode]
    exact exec_ne_fault_of_ready (fun r _ => hall r) f
  | raises e =>
    rw [issue_of_decode_raises hdecode]
    exact nofun

/-- A fault of a step is a fault of the word at `pc`. -/
theorem step_fault {s : State} {f : Fault} (h : step s = .fault f) :
    ∃ c, s.wordAtPc = some c ∧ issue c s = .fault f := by
  cases hpending : s.pending with
  | some p => cases (step_of_pending (Option.isSome_of_eq_some hpending)).symm.trans h
  | none =>
    cases hc : s.wordAtPc with
    | none => cases (step_of_no_word hpending hc).symm.trans h
    | some c => exact ⟨c, rfl, (step_eq_issue hpending hc).symm.trans h⟩

/-- Settles O15: a step takes no mark of a written register away, and the word it issues finds every source written. -/
theorem writtenRunNeverFaults : Obligations.WrittenRunNeverFaults := by
  intro s hall
  refine ⟨fun f hfault => ?_, fun t hnext r => written_of_step_next hnext (hall r)⟩
  obtain ⟨c, -, hissue⟩ := step_fault hfault
  exact issue_ne_fault_of_allWritten hall c f hissue

/-! ### Where a run ends (70_reset_and_hazards.md R173) -/

theorem issue_ne_refused (c : Command) (s : State) (r : Refusal) : issue c s ≠ .refused r := by
  cases hdecode : decode c with
  | command i =>
    rw [issue_of_decode_command hdecode]
    exact exec_ne_refused i s r
  | raises e =>
    rw [issue_of_decode_raises hdecode]
    exact nofun

theorem wordAtPc_of_end {s : State} (hend : s.pc.toNat = 4 * s.stream.length) : s.wordAtPc = none := by
  rw [wordAtPc_of_aligned (by omega), List.getElem?_eq_none_iff]
  omega

theorem exists_wordAtPc_of_lt {s : State} (haligned : s.pc.toNat % 4 = 0)
    (hlt : s.pc.toNat < 4 * s.stream.length) : ∃ c, s.wordAtPc = some c := by
  have hword : s.pc.toNat / 4 < s.stream.length := by omega
  exact ⟨_, (wordAtPc_of_aligned haligned).trans (List.getElem?_eq_getElem hword)⟩

/-- Settles O18: a report refuses the step; at the end of the stream there is no word to issue; before it, where the
invariant keeps `pc`, there is one, and no issued word is refused. -/
theorem runEndsWhereTheSpecSays : Obligations.RunEndsWhereTheSpecSays := by
  rintro s ⟨-, haligned, hend, -⟩
  refine ⟨step_of_pending, fun hnone hat => ?atEnd, fun hnone hne r => ?before⟩
  case atEnd =>
    have hcompleted : s.completed = true := beq_iff_eq.2 hat
    rw [step_of_no_word hnone (wordAtPc_of_end hat), if_pos hcompleted]
  case before =>
    obtain ⟨c, hc⟩ := exists_wordAtPc_of_lt haligned (Nat.lt_of_le_of_ne hend hne)
    rw [step_eq_issue hnone hc]
    exact issue_ne_refused c s r

/-! ### The two resets (70_reset_and_hazards.md R166) -/

@[simp] theorem State.written_unwrittenReset (g : Nat) (r : RegName) :
    (State.unwrittenReset g).written r = false := by
  cases r <;> simp [State.written, State.unwrittenReset]

@[simp] theorem State.written_launchedReset (g : Nat) (r : RegName) :
    (State.launchedReset g).written r = true := by
  cases r <;> simp [State.written, State.launchedReset]

@[simp] theorem State.regBits_launchedReset (g : Nat) (r : RegName) :
    (State.launchedReset g).regBits r = 0 := by
  cases r <;>
    simp [State.regBits, State.vreg, State.mreg, State.xreg, State.launchedReset, State.unwrittenReset]

/-- Every command reads its data operand `vs1`. -/
theorem exists_mem_sourcesOf (i : Instr) : ∃ r, r ∈ sourcesOf i := by
  cases i <;> exact ⟨_, .head _⟩

theorem not_ready_unwrittenReset (g : Nat) (i : Instr) : ¬ Ready (State.unwrittenReset g) i := by
  obtain ⟨r, hr⟩ := exists_mem_sourcesOf i
  exact (not_ready_iff _ _).2 ⟨r, hr, State.written_unwrittenReset g r⟩

/-- Settles O8: no command is ready where no register is written, and each has a source to fault on. -/
theorem unwrittenResetAsTheSpecSays : Obligations.UnwrittenResetAsTheSpecSays := by
  refine fun g => ⟨State.written_unwrittenReset g, fun i hw => ?_, rfl, rfl⟩
  obtain ⟨r, hr, -, hfault⟩ := exec_of_not_ready hw (not_ready_unwrittenReset g i)
  exact ⟨r, hr, hfault⟩

/-- Settles O9: `State.reset` is the launched reset of two groups, which has the zeros and the marks of every
configuration's. -/
theorem resetHoldsZeroEverywhere : Obligations.ResetHoldsZeroEverywhere :=
  ⟨rfl, rfl, rfl, rfl, fun r =>
    ⟨State.written_launchedReset _ r, State.regBits_launchedReset _ r⟩⟩

/-- Before the first command the invariant asks nothing but that a register has a group: `pc` 0 is the offset of the
first word, or the end of an empty stream. -/
theorem inv_of_pc_zero {s : State} (hgroups : 0 < s.vgroups) (hpc : s.pc = 0) (hnone : s.pending = none) :
    s.Inv := by
  simp [State.Inv, hgroups, hpc, hnone]

/-- Settles O10: both resets stand before the first command with nothing pending. -/
theorem resetMeetsInvariant : Obligations.ResetMeetsInvariant :=
  ⟨inv_of_pc_zero Nat.two_pos rfl rfl, fun _ hgroups => inv_of_pc_zero hgroups rfl rfl⟩

end Sys2Proof.Machine
